-- ==== Sys2Proof/Word.lean ====
section
/-! DEFINITION. The word types: bytes, 16-bit addresses and text (00_scope.md section 6). -/

namespace Sys2Proof

/-- `u8`: the contents of a general register or a memory cell (R7, R24). -/
abbrev Byte := BitVec 8

/-- `u16`: PC, SP, a memory address, a record's address (R7, R26, R40). -/
abbrev Addr := BitVec 16

/-- Text: assembly source, mnemonics, messages (R60, R106). -/
abbrev Text := List Char

end Sys2Proof
end

