-- ==== Sys2Proof/Syntax.lean ====
section
/-! DEFINITION. The abstract syntax: registers, the eleven instructions, and the instruction record the machine
executes (30_encoding.md R60 to R64, R82). -/

namespace Sys2Proof

/-- The seven general registers (R24). `M`, `SP` and register pairs are no registers (R71). -/
inductive Reg where
  | a | b | c | d | e | h | l
  deriving DecidableEq, Repr

/-- The eleven mnemonics (R2). -/
inductive Mnemonic where
  | mvi | mov | lda | sta | add | adi | sub | sui | jmp | cma | hlt
  deriving DecidableEq, Repr

/-- A decoded instruction, one constructor per row of the opcode table (R82, R83). The constructor `Unknown` of R82
is no row of the table: it stands in `Decoded`. -/
inductive Instr where
  | mvi (r : Reg) (v : Byte)
  | mov (rd rs : Reg)
  | lda (addr : Addr)
  | sta (addr : Addr)
  | add (r : Reg)
  | adi (v : Byte)
  | sub (r : Reg)
  | sui (v : Byte)
  | jmp (addr : Addr)
  | cma
  | hlt
  deriving DecidableEq, Repr

/-- The kinds of operand a mnemonic asks for, position by position (R63, R64). -/
inductive OperandKind where
  | reg | imm8 | addr16
  deriving DecidableEq, Repr

/-- An operand as a record holds it (R63). The assembler emits only registers and numbers within width; a host-built
record may hold any number, or text that was never resolved. -/
inductive Operand where
  | reg (r : Reg)
  | num (n : Int)
  | token (t : Text)
  deriving DecidableEq, Repr

/-- The instruction record (R60, R61). -/
structure Record where
  mnemonic : Text
  operands : List Operand
  /-- Absent in an error record whose mnemonic is unknown (R61, C8). -/
  address : Option Addr
  raw : Text
  lineNumber : Nat
  error : Bool
  errorMessage : Option Text
  deriving DecidableEq, Repr

/-- What decoding a record gives (R82): a known instruction, or `Unknown(name)`. -/
inductive Decoded where
  | known (i : Instr)
  | unknown (name : Text)
  deriving DecidableEq, Repr

/-- Why a record does not decode (R82, R215). -/
inductive RecordRefusal where
  /-- The record has `error = true`. -/
  | errorRecord
  /-- A known mnemonic whose operands do not have its shape. -/
  | malformedRecord
  deriving DecidableEq, Repr

/-- Why bytes do not decode as an instruction (R86, reference only). -/
inductive ByteRefusal where
  /-- Fewer bytes than the opcode's size. -/
  | truncated
  /-- No row of the opcode table has this first byte. -/
  | unknownOpcode (op : Byte)
  /-- A register field holds 110, the operand `M` this machine does not have. -/
  | memoryOperand (op : Byte)
  deriving DecidableEq, Repr

end Sys2Proof
end

