-- ==== Sys2Proof/Machine/State.lean ====
section
/-! DEFINITION. The machine's state as plain data, its reset value, and the reasons a step can stop. -/

namespace Sys2Proof.Machine

/-- The five flags, five separate booleans (R28, R30). -/
structure Flags where
  z : Bool
  s : Bool
  cy : Bool
  p : Bool
  ac : Bool
  deriving DecidableEq, Repr

/-- The data memory: the cells that do not hold 0x00, addresses strictly rising. An unlisted address reads 0x00, its
contents at construction and reset (R34). -/
abbrev Memory := List Host.Cell

/-- The canonical form of a memory. -/
abbrev Memory.wf (m : Memory) : Prop :=
  m.Pairwise (fun x y => x.1 < y.1) ∧ ∀ c ∈ m, c.1 < 0x10000 ∧ c.2 ≠ 0

/-- R22's record: the complete CPU state. -/
structure CpuState where
  a : Byte
  b : Byte
  c : Byte
  d : Byte
  e : Byte
  h : Byte
  l : Byte
  pc : Addr
  sp : Addr
  flags : Flags
  mem : Memory
  halted : Bool
  running : Bool
  deriving DecidableEq, Repr

/-- A run in flight: the program array and the index of the record to execute next (R35, R110). -/
structure RunLoop where
  prog : List Record
  idx : Nat
  deriving DecidableEq, Repr

/-- What `executeInstruction` returns (R100, R106). -/
structure StepOutcome where
  executed : Bool
  message : Text
  deriving DecidableEq, Repr

/-- The snapshot: all of the CPU state but the memory (R120). -/
structure Snapshot where
  a : Byte
  b : Byte
  c : Byte
  d : Byte
  e : Byte
  h : Byte
  l : Byte
  pc : Addr
  sp : Addr
  flags : Flags
  halted : Bool
  running : Bool
  deriving DecidableEq, Repr

/-- A number the host passes: an integer, or a number that is none (R110, D9, D25). -/
inductive HostNumber where
  | int (n : Int)
  | nonInteger
  deriving DecidableEq, Repr

/-- The calls of the external interface (R121, R122). -/
inductive HostCall where
  | assemble (source : Text)
  | reset
  | executeInstruction (record : Record)
  | run (prog : List Record) (startIndex : HostNumber)
  | getMemory (start length : HostNumber)
  | snapshot
  deriving DecidableEq, Repr

/-- What a call gives back to the host (R122). -/
inductive Reply where
  | records (rs : List Record)
  | nothing
  | outcome (o : StepOutcome)
  /-- `run`'s final index, or none (R113). -/
  | finalIndex (idx : Option Nat)
  /-- `getMemory`'s map, in rising order of address (R55). -/
  | cells (map : List (Text × Byte))
  | registers (snap : Snapshot)
  deriving DecidableEq, Repr

/-- The whole state: the CPU, the run in flight, what the host got back, and the calls it is still to make. -/
structure State where
  cpu : CpuState
  /-- The run in flight; none between calls (R35). -/
  loop : Option RunLoop
  /-- What the latest `executeInstruction` returned (R100). DESIGN CHOICE (log 5). -/
  outcome : Option StepOutcome
  /-- What the latest completed host call returned (R122). DESIGN CHOICE (log 5). -/
  reply : Option Reply
  /-- The host's calls still to be made, the next one first. DESIGN CHOICE (log 4). -/
  calls : List HostCall
  deriving DecidableEq, Repr

/-- The machine has no fault: no instruction traps and no memory access fails (R49, R105, R210). Nothing raises one,
so the type has no constructor; safe (log 16). -/
inductive Fault where
  deriving DecidableEq, Repr

/-- The model's refusals (R215): input the spec gives no meaning to. Every one is safe: the model stops where the
reference software may go on. -/
inductive Refusal where
  /-- Raised by an arm of `exec` for an instruction without a meaning; no arm does. Safe. -/
  | notModelled (mnemonic : String)
  /-- Raised by `run` on a program with an error record, and by the decoding of an error record (R62, R82). Safe. -/
  | errorRecord
  /-- Raised by the decoding of a known mnemonic whose operands lack its shape (R82). Safe. -/
  | malformedRecord
  /-- Raised by `run` with a `startIndex` that is negative or no integer (R110). Safe. -/
  | badIndex
  /-- Raised by `getMemory` on an argument that is no integer (R55, D9). Safe. -/
  | badMemoryArgs
  /-- Raised by `assemble` on a line with a control character other than tab (R69). Safe. -/
  | charSet
  /-- Raised by `assemble` on a mnemonic token with a comma in it (R69). Safe. -/
  | mnemonicComma
  /-- Raised by `assemble` on a label that is no identifier, or a second colon (R70). Safe. -/
  | labelSyntax
  /-- Raised by `assemble` on a label defined twice (R70, R77). Safe. -/
  | duplicateLabel
  /-- Raised by `assemble` on a mnemonic or register name that matches only after upper-casing (R71, R75). Safe. -/
  | caseFold
  /-- Raised by `assemble` on a literal such as `12G`, `0x1F` or `+5` (R72). Safe. -/
  | ambiguousHex
  /-- Raised by `assemble` on an address token that is both a known label and a hex literal (R73). Safe. -/
  | labelHexClash
  /-- Raised by `assemble` on an empty operand (R74). Safe. -/
  | emptyOperand
  /-- Raised by `assemble` on a record or label past 0xFFFF (R68). Safe. -/
  | addressOverflow
  deriving DecidableEq, Repr

/-- The CPU's reset values (R36, R240; log 11 for construction). -/
def CpuState.reset : CpuState where
  a := 0x00
  b := 0x00
  c := 0x00
  d := 0x00
  e := 0x00
  h := 0x00
  l := 0x00
  pc := 0x0000
  sp := 0xFFFF
  flags := { z := false, s := false, cy := false, p := false, ac := false }
  mem := []
  halted := false
  running := false

/-- The machine right after reset: the CPU at R36's values, no run in flight, nothing returned, no call made. -/
def State.reset : State where
  cpu := CpuState.reset
  loop := none
  outcome := none
  reply := none
  calls := []

end Sys2Proof.Machine
end

