-- ==== Sys2Proof/Config.lean ====
section
/-! DEFINITION. The machine's fixed parameters (R7) and the values the spec leaves open (R106, R61). -/

namespace Sys2Proof

/-- The label this spec gives the machine (R3, D1; log 28). -/
def Config.identifier : Text := "AVLS-8085-sub001".toList

/-- One past the last memory address and the last record address (R7, R40, R68). -/
def Config.addressSpaceSize : Nat := 0x10000

/-- The largest `imm8` (R7, R72). -/
def Config.maxImm8 : Nat := 0xFF

/-- The largest `addr16` (R7, R72). -/
def Config.maxAddr16 : Nat := 0xFFFF

/-- The message of an executed instruction other than `HLT`: a draw under no law, a function of the instruction and
the state it is executed in (R106, D30). Free value (log 2). -/
opaque Config.okMessage (i : Instr) (c : Machine.CpuState) : Text

/-- The message of an error record, from the line's number and text: its first character and the rest, so that it is
never empty and otherwise any text (R61, D22). Free value (log 3). -/
opaque Config.errorText (lineNumber : Nat) (raw : Text) : Char × Text

end Sys2Proof
end

