-- ==== Sys2Proof/Decode.lean ====
section
/-! DEFINITION. The decoders and encoders. The machine decodes RECORDS (`decodeRecord`, R82). The byte decoder and
encoder at the end follow the Intel table of R86, which no rule of the machine reads (log 7). -/

namespace Sys2Proof

/-! ### Names and tables of the mnemonics (R2, R64, R67) -/

/-- The mnemonic's text, upper case exactly (R75). -/
def Mnemonic.text : Mnemonic → Text
  | .mvi => ['M', 'V', 'I']
  | .mov => ['M', 'O', 'V']
  | .lda => ['L', 'D', 'A']
  | .sta => ['S', 'T', 'A']
  | .add => ['A', 'D', 'D']
  | .adi => ['A', 'D', 'I']
  | .sub => ['S', 'U', 'B']
  | .sui => ['S', 'U', 'I']
  | .jmp => ['J', 'M', 'P']
  | .cma => ['C', 'M', 'A']
  | .hlt => ['H', 'L', 'T']

/-- All eleven, in the opcode table's order (R2). -/
def Mnemonic.all : List Mnemonic := [.mvi, .mov, .lda, .sta, .add, .adi, .sub, .sui, .jmp, .cma, .hlt]

/-- The mnemonic a token names, when it is exactly one of the eleven (R75). -/
def Mnemonic.ofText (t : Text) : Option Mnemonic := Mnemonic.all.find? fun m => m.text == t

/-- The operand shape (R64). -/
def Mnemonic.operandKinds : Mnemonic → List OperandKind
  | .mvi => [.reg, .imm8]
  | .mov => [.reg, .reg]
  | .lda => [.addr16]
  | .sta => [.addr16]
  | .add => [.reg]
  | .adi => [.imm8]
  | .sub => [.reg]
  | .sui => [.imm8]
  | .jmp => [.addr16]
  | .cma => []
  | .hlt => []

/-- The size in bytes (R65, R67). -/
def Mnemonic.size : Mnemonic → Nat
  | .mvi => 2
  | .mov => 1
  | .lda => 3
  | .sta => 3
  | .add => 1
  | .adi => 2
  | .sub => 1
  | .sui => 2
  | .jmp => 3
  | .cma => 1
  | .hlt => 1

def Instr.mnemonic : Instr → Mnemonic
  | .mvi _ _ => .mvi
  | .mov _ _ => .mov
  | .lda _ => .lda
  | .sta _ => .sta
  | .add _ => .add
  | .adi _ => .adi
  | .sub _ => .sub
  | .sui _ => .sui
  | .jmp _ => .jmp
  | .cma => .cma
  | .hlt => .hlt

/-- An instruction's size is its mnemonic's (R65). -/
def Instr.size (i : Instr) : Nat := i.mnemonic.size

/-- The register's name (R24). -/
def Reg.text : Reg → Text
  | .a => ['A']
  | .b => ['B']
  | .c => ['C']
  | .d => ['D']
  | .e => ['E']
  | .h => ['H']
  | .l => ['L']

def Reg.all : List Reg := [.a, .b, .c, .d, .e, .h, .l]

/-- The register a token names, when it is exactly one of the seven (R71). -/
def Reg.ofText (t : Text) : Option Reg := Reg.all.find? fun r => r.text == t

/-! ### The record decoder (R82) -/

/-- A `reg` operand (R63). -/
def Operand.reg? : Operand → Option Reg
  | .reg r => some r
  | .num _ => none
  | .token _ => none

/-- An `imm8` operand: a value in `u8`, refused and never masked outside it (R63, D11; log 13). -/
def Operand.imm8? : Operand → Option Byte
  | .reg _ => none
  | .num n => if 0 ≤ n ∧ n ≤ 0xFF then some (BitVec.ofInt 8 n) else none
  | .token _ => none

/-- An `addr16` operand: a value in `u16` (R63, D11). -/
def Operand.addr16? : Operand → Option Addr
  | .reg _ => none
  | .num n => if 0 ≤ n ∧ n ≤ 0xFFFF then some (BitVec.ofInt 16 n) else none
  | .token _ => none

/-- Format FR: one register. -/
def decodeReg (make : Reg → Instr) : List Operand → Option Instr
  | [x] => x.reg?.map make
  | _ => none

/-- Format FI: one immediate. -/
def decodeImm (make : Byte → Instr) : List Operand → Option Instr
  | [x] => x.imm8?.map make
  | _ => none

/-- Format FA: one address. -/
def decodeAddr (make : Addr → Instr) : List Operand → Option Instr
  | [x] => x.addr16?.map make
  | _ => none

/-- Format FRI: a register and an immediate. -/
def decodeRegImm (make : Reg → Byte → Instr) : List Operand → Option Instr
  | [x, y] => x.reg?.bind fun r => y.imm8?.map (make r)
  | _ => none

/-- Format FRR: destination and source. -/
def decodeRegReg (make : Reg → Reg → Instr) : List Operand → Option Instr
  | [x, y] => x.reg?.bind fun rd => y.reg?.map (make rd)
  | _ => none

/-- Format F0: no operand. -/
def decodeNone (i : Instr) : List Operand → Option Instr
  | [] => some i
  | _ => none

/-- The constructor of a known mnemonic, when the operands have its shape (R64, R82). -/
def decodeOperands (m : Mnemonic) (ops : List Operand) : Option Instr :=
  match m with
  | .mvi => decodeRegImm .mvi ops
  | .mov => decodeRegReg .mov ops
  | .lda => decodeAddr .lda ops
  | .sta => decodeAddr .sta ops
  | .add => decodeReg .add ops
  | .adi => decodeImm .adi ops
  | .sub => decodeReg .sub ops
  | .sui => decodeImm .sui ops
  | .jmp => decodeAddr .jmp ops
  | .cma => decodeNone .cma ops
  | .hlt => decodeNone .hlt ops

/-- R82's decoder: a total function from a record to a decoded instruction or a refusal. -/
def decodeRecord (r : Record) : Except RecordRefusal Decoded :=
  if r.error then .error .errorRecord
  else
    match Mnemonic.ofText r.mnemonic with
    | none => .ok (.unknown r.mnemonic)
    | some m =>
      match decodeOperands m r.operands with
      | some i => .ok (.known i)
      | none => .error .malformedRecord

/-! ### The record encoder and the source text of an instruction -/

/-- The operands of an instruction's record, in the order of the text (R64). -/
def Instr.operands : Instr → List Operand
  | .mvi r v => [.reg r, .num v.toNat]
  | .mov rd rs => [.reg rd, .reg rs]
  | .lda a => [.num a.toNat]
  | .sta a => [.num a.toNat]
  | .add r => [.reg r]
  | .adi v => [.num v.toNat]
  | .sub r => [.reg r]
  | .sui v => [.num v.toNat]
  | .jmp a => [.num a.toNat]
  | .cma => []
  | .hlt => []

/-- An upper-case hexadecimal digit. -/
def hexDigit (n : Nat) : Char :=
  ['0', '1', '2', '3', '4', '5', '6', '7', '8', '9', 'A', 'B', 'C', 'D', 'E', 'F'].getD n '0'

/-- Two upper-case hexadecimal digits. -/
def hex2 (v : Byte) : Text := [hexDigit (v.toNat / 16), hexDigit (v.toNat % 16)]

/-- `hex4upper` of R55: exactly four upper-case hexadecimal digits, with no prefix. -/
def hex4 (a : Addr) : Text :=
  [hexDigit (a.toNat / 4096), hexDigit (a.toNat / 256 % 16), hexDigit (a.toNat / 16 % 16), hexDigit (a.toNat % 16)]

/-- One source line for the instruction, in the syntax of R85: `MNEMONIC op1,op2` with `H`-suffixed literals. -/
def Instr.source (i : Instr) : Text :=
  i.mnemonic.text ++
    match i with
    | .mvi r v => ' ' :: r.text ++ ',' :: hex2 v ++ ['H']
    | .mov rd rs => ' ' :: rd.text ++ ',' :: rs.text
    | .lda a => ' ' :: hex4 a ++ ['H']
    | .sta a => ' ' :: hex4 a ++ ['H']
    | .add r => ' ' :: r.text
    | .adi v => ' ' :: hex2 v ++ ['H']
    | .sub r => ' ' :: r.text
    | .sui v => ' ' :: hex2 v ++ ['H']
    | .jmp a => ' ' :: hex4 a ++ ['H']
    | .cma => []
    | .hlt => []

/-- The executable record of an instruction at an address, as the assembler would emit it from `Instr.source` on
line 1 (R60, R78). -/
def Instr.toRecord (i : Instr) (addr : Addr) : Record where
  mnemonic := i.mnemonic.text
  operands := i.operands
  address := some addr
  raw := i.source
  lineNumber := 1
  error := false
  errorMessage := none

/-! ### Intel bytes (R86, reference only; log 7) -/

/-- The register field code (R86). PRESUMED: R86 marks it general knowledge, not in source. -/
def Reg.code : Reg → BitVec 3
  | .b => 0b000
  | .c => 0b001
  | .d => 0b010
  | .e => 0b011
  | .h => 0b100
  | .l => 0b101
  | .a => 0b111

/-- The register of a field code; 110 is the operand `M`, no register of this machine (R86). -/
def Reg.ofCode (code : BitVec 3) : Option Reg := Reg.all.find? fun r => r.code == code

/-- A row of the byte table: the first byte `op` belongs to it when `op &&& mask = pattern` (opcode_table.json). -/
structure ByteRow where
  mnemonic : Mnemonic
  mask : Byte
  pattern : Byte
  deriving DecidableEq, Repr

/-- The opcode table's rows. `HLT` stands before `MOV`, whose pattern covers its byte 0x76 (the table's exclusion). -/
def byteRows : List ByteRow :=
  [⟨.mvi, 0xC7, 0x06⟩, ⟨.hlt, 0xFF, 0x76⟩, ⟨.mov, 0xC0, 0x40⟩, ⟨.lda, 0xFF, 0x3A⟩,
   ⟨.sta, 0xFF, 0x32⟩, ⟨.add, 0xF8, 0x80⟩, ⟨.adi, 0xFF, 0xC6⟩, ⟨.sub, 0xF8, 0x90⟩,
   ⟨.sui, 0xFF, 0xD6⟩, ⟨.jmp, 0xFF, 0xC3⟩, ⟨.cma, 0xFF, 0x2F⟩]

/-- The mnemonic a first byte belongs to. -/
def mnemonicOfByte (op : Byte) : Option Mnemonic :=
  (byteRows.find? fun row => op &&& row.mask == row.pattern).map (·.mnemonic)

/-- The register field at bits 5..3 of the opcode byte. -/
def destField (op : Byte) : Option Reg := Reg.ofCode (op.extractLsb' 3 3)

/-- The register field at bits 2..0 of the opcode byte. -/
def sourceField (op : Byte) : Option Reg := Reg.ofCode (op.extractLsb' 0 3)

/-- A field that holds a register, or the refusal of `M`. -/
def needReg (op : Byte) (field : Option Reg) : Except ByteRefusal Reg :=
  match field with
  | some r => .ok r
  | none => .error (.memoryOperand op)

/-- The immediate byte after the opcode. -/
def takeImm : List Byte → Except ByteRefusal (Byte × List Byte)
  | [] => .error .truncated
  | v :: rest => .ok (v, rest)

/-- The address after the opcode: low byte first (R86). -/
def takeAddr : List Byte → Except ByteRefusal (Addr × List Byte)
  | lo :: hi :: rest => .ok (BitVec.ofNat 16 (hi.toNat * 256 + lo.toNat), rest)
  | _ => .error .truncated

/-- The operands of a first byte `op` whose mnemonic is `m`, read from the bytes after it. -/
def decodeBody (m : Mnemonic) (op : Byte) (rest : List Byte) : Except ByteRefusal (Instr × List Byte) :=
  match m with
  | .mvi => (needReg op (destField op)).bind fun r => (takeImm rest).map fun x => (.mvi r x.1, x.2)
  | .mov => (needReg op (destField op)).bind fun rd => (needReg op (sourceField op)).map fun rs => (.mov rd rs, rest)
  | .lda => (takeAddr rest).map fun x => (.lda x.1, x.2)
  | .sta => (takeAddr rest).map fun x => (.sta x.1, x.2)
  | .add => (needReg op (sourceField op)).map fun r => (.add r, rest)
  | .adi => (takeImm rest).map fun x => (.adi x.1, x.2)
  | .sub => (needReg op (sourceField op)).map fun r => (.sub r, rest)
  | .sui => (takeImm rest).map fun x => (.sui x.1, x.2)
  | .jmp => (takeAddr rest).map fun x => (.jmp x.1, x.2)
  | .cma => .ok (.cma, rest)
  | .hlt => .ok (.hlt, rest)

/-- The byte decoder: total on any bytes, rejecting by name. No rule of the machine reads it (R86, D34). -/
def decodeBytes : List Byte → Except ByteRefusal (Instr × List Byte)
  | [] => .error .truncated
  | op :: rest =>
    match mnemonicOfByte op with
    | none => .error (.unknownOpcode op)
    | some m => decodeBody m op rest

/-- The two bytes of an address, low byte first (R86). -/
def addrBytes (a : Addr) : List Byte := [BitVec.ofNat 8 a.toNat, BitVec.ofNat 8 (a.toNat / 256)]

/-- The byte encoder, from the byte patterns of R86. -/
def encode : Instr → List Byte
  | .mvi r v => [(0b00 : BitVec 2) ++ r.code ++ (0b110 : BitVec 3), v]
  | .mov rd rs => [(0b01 : BitVec 2) ++ rd.code ++ rs.code]
  | .lda a => 0x3A :: addrBytes a
  | .sta a => 0x32 :: addrBytes a
  | .add r => [(0b10000 : BitVec 5) ++ r.code]
  | .adi v => [0xC6, v]
  | .sub r => [(0b10010 : BitVec 5) ++ r.code]
  | .sui v => [0xD6, v]
  | .jmp a => 0xC3 :: addrBytes a
  | .cma => [0x2F]
  | .hlt => [0x76]

/-- The instruction the byte decoder reads from a word whose bits are numbered as spec/opcode_table.json numbers
them: the first byte is bits 7..0, the second bits 15..8, the third bits 23..16; every bit from `nbits` on is 0. -/
def decodeTableWord (nbits w : Nat) : Option Instr :=
  let bits := w % 2 ^ nbits
  match decodeBytes [BitVec.ofNat 8 bits, BitVec.ofNat 8 (bits / 256), BitVec.ofNat 8 (bits / 65536)] with
  | .ok (i, _) => some i
  | .error _ => none

end Sys2Proof
end

