-- ==== Sys2Proof/Machine/Assembler.lean ====
section
/-! DEFINITION. The two-pass assembler (30_encoding.md R61, R66 to R81). A bad line gives an error record; a line the
spec leaves open refuses the whole source (R79, R215). -/

namespace Sys2Proof.Machine

/-! ### Characters and pieces of text -/

/-- Whitespace is space and tab (R69 step 2). -/
def isWhite (c : Char) : Bool := c == ' ' || c == '\t'

/-- A control character: Unicode's C0, DEL and C1 (R69 step 2). DESIGN CHOICE (log 20). -/
def isControl (c : Char) : Bool := decide (c.toNat < 0x20) || (decide (0x7F ≤ c.toNat) && decide (c.toNat ≤ 0x9F))

def trimLeft (t : Text) : Text := t.dropWhile isWhite

/-- Trimmed of whitespace at both ends (R69 step 4). -/
def trim (t : Text) : Text := (trimLeft (trimLeft t).reverse).reverse

/-- The pieces of a text between the occurrences of a separator. -/
def splitAtChar (sep : Char) : Text → List Text
  | [] => [[]]
  | c :: cs =>
    match splitAtChar sep cs with
    | [] => [[c]]
    | piece :: pieces => if c == sep then [] :: piece :: pieces else (c :: piece) :: pieces

/-- The non-empty pieces of a text between runs of whitespace; `word` is the piece begun, reversed. -/
def splitWhiteFrom (word : Text) : Text → List Text
  | [] => if word.isEmpty then [] else [word.reverse]
  | c :: cs =>
    if isWhite c then
      if word.isEmpty then splitWhiteFrom [] cs else word.reverse :: splitWhiteFrom [] cs
    else splitWhiteFrom (c :: word) cs

def splitWhite (t : Text) : List Text := splitWhiteFrom [] t

/-- The line without one carriage return at its end (R69 step 1). -/
def dropReturn (t : Text) : Text := if t.getLast? = some '\r' then t.dropLast else t

/-- The lines of a source: split at each line feed, line 1 first (R69 step 1). -/
def sourceLines (source : Text) : List Text := (splitAtChar '\n' source).map dropReturn

/-- The characters outside ASCII whose upper-case text is ASCII letters, by code point: sharp s, dotless i, long s, and
the Latin ligatures. DEDUCED: R71 and R75 say upper-cased and name no alphabet, so it is all of Unicode's (log 20). -/
def upperOutsideAscii : List (Nat × Text) :=
  [(0x00DF, ['S', 'S']), (0x0131, ['I']), (0x017F, ['S']), (0xFB00, ['F', 'F']), (0xFB01, ['F', 'I']),
   (0xFB02, ['F', 'L']), (0xFB03, ['F', 'F', 'I']), (0xFB04, ['F', 'F', 'L']), (0xFB05, ['S', 'T']),
   (0xFB06, ['S', 'T'])]

/-- A character upper-cased, as text (R71, R75). A character whose upper-case text is not ASCII is left as it is: no
name has such a character, upper-cased or not (log 20). -/
def upperChar (c : Char) : Text :=
  if decide (97 ≤ c.toNat) && decide (c.toNat ≤ 122) then [Char.ofNat (c.toNat - 32)]
  else
    match upperOutsideAscii.find? fun entry => entry.1 == c.toNat with
    | some entry => entry.2
    | none => [c]

def upper (t : Text) : Text := t.flatMap upperChar

/-- `[A-Za-z_]` (R70). -/
def isIdentStart (c : Char) : Bool :=
  c == '_' || (decide (65 ≤ c.toNat) && decide (c.toNat ≤ 90)) || (decide (97 ≤ c.toNat) && decide (c.toNat ≤ 122))

/-- `[0-9]` (R70, R72). -/
def isDecimal (c : Char) : Bool := decide (48 ≤ c.toNat) && decide (c.toNat ≤ 57)

/-- `[A-Za-z_][A-Za-z0-9_]*` (R70). -/
def isIdentifier : Text → Bool
  | [] => false
  | c :: cs => isIdentStart c && cs.all fun x => isIdentStart x || isDecimal x

/-! ### Lines (R69, R70, R75) -/

/-- A line split: its label, and its mnemonic token with the operand text. -/
structure ParsedLine where
  label : Option Text
  code : Option (Text × Text)
  deriving DecidableEq, Repr

/-- R69 step 7 and R75: the instruction part's mnemonic token and operand text. -/
def parseCode (part : Text) : Except Refusal (Text × Text) :=
  let token := part.takeWhile fun c => !isWhite c
  let operands := trim (part.dropWhile fun c => !isWhite c)
  if token.contains ',' then .error .mnemonicComma
  else if (Mnemonic.ofText token).isNone && (Mnemonic.ofText (upper token)).isSome then .error .caseFold
  else .ok (token, operands)

/-- R69 steps 6 and 7: what an instruction part gives. -/
def parsePart (label : Option Text) (part : Text) : Except Refusal ParsedLine :=
  if part.isEmpty then .ok { label := label, code := none }
  else (parseCode part).map fun code => { label := label, code := some code }

/-- R69 steps 5 to 7 on a line without its comment, trimmed. -/
def parseBody (body : Text) : Except Refusal ParsedLine :=
  if body.contains ':' then
    let label := trim (body.takeWhile fun c => c != ':')
    let part := trim ((body.dropWhile fun c => c != ':').drop 1)
    if !isIdentifier label || part.contains ':' then .error .labelSyntax else parsePart (some label) part
  else parsePart none body

/-- A line split by R69, or the refusal of the source. -/
def parseLine (line : Text) : Except Refusal ParsedLine :=
  if line.any fun c => isControl c && c != '\t' then .error .charSet
  else
    let body := trim (line.takeWhile fun c => c != ';')
    if body.isEmpty then .ok { label := none, code := none } else parseBody body

/-- The known mnemonic of a line, when it has one (R66, R75). -/
def ParsedLine.mnemonic? (p : ParsedLine) : Option Mnemonic := p.code.bind fun code => Mnemonic.ofText code.1

/-- What a line adds to the address counter: its mnemonic's size, or nothing for an unknown mnemonic or none
(R66, R75). -/
def ParsedLine.size (p : ParsedLine) : Nat :=
  match p.mnemonic? with
  | some m => m.size
  | none => 0

/-! ### Pass 1: the label table (R77) -/

/-- The label table; labels are compared case-sensitively (R70). -/
abbrev LabelTable := List (Text × Addr)

def LabelTable.find (labels : LabelTable) (label : Text) : Option Addr :=
  (List.find? (fun entry => entry.1 == label) labels).map (·.2)

/-- A line's label bound to the running address (R77). -/
def bindLabel (label : Option Text) (cur : Nat) (labels : LabelTable) : Except Refusal LabelTable :=
  match label with
  | none => .ok labels
  | some name =>
    if (labels.find name).isSome then .error .duplicateLabel
    else if Config.addressSpaceSize ≤ cur then .error .addressOverflow
    else .ok (labels ++ [(name, BitVec.ofNat 16 cur)])

/-- The running address after a line, or the refusal of a record that does not fit (R68, R77). -/
def nextAddress (p : ParsedLine) (cur : Nat) : Except Refusal Nat :=
  if p.mnemonic?.isSome && decide (Config.addressSpaceSize < cur + p.size) then .error .addressOverflow
  else .ok (cur + p.size)

/-- R77 from a running address and the labels bound so far. -/
def pass1From (cur : Nat) (labels : LabelTable) : List Text → Except Refusal LabelTable
  | [] => .ok labels
  | line :: lines =>
    match parseLine line with
    | .error r => .error r
    | .ok p =>
      match bindLabel p.label cur labels with
      | .error r => .error r
      | .ok labels' =>
        match nextAddress p cur with
        | .error r => .error r
        | .ok cur' => pass1From cur' labels' lines

def pass1 (lines : List Text) : Except Refusal LabelTable := pass1From 0 [] lines

/-! ### Operands (R71 to R74, R76) -/

/-- R74: the operand text split at commas or, where there is none, at whitespace. -/
def splitOperands (t : Text) : Except Refusal (List Text) :=
  if t.isEmpty then .ok []
  else
    let pieces := (splitAtChar ',' t).map trim
    if pieces.any (·.isEmpty) then .error .emptyOperand else .ok (pieces.flatMap splitWhite)

/-- The value of a hexadecimal digit. -/
def hexValue (c : Char) : Option Nat :=
  if isDecimal c then some (c.toNat - 48)
  else if decide (65 ≤ c.toNat) && decide (c.toNat ≤ 70) then some (c.toNat - 55)
  else if decide (97 ≤ c.toNat) && decide (c.toNat ≤ 102) then some (c.toNat - 87)
  else none

def isHexDigit (c : Char) : Bool := (hexValue c).isSome

/-- A text of hexadecimal digits read as base 16, after the value of the digits before it. -/
def hexNumberFrom (acc : Nat) : Text → Nat
  | [] => acc
  | c :: cs => hexNumberFrom (acc * 16 + (hexValue c).getD 0) cs

def hexNumber (t : Text) : Nat := hexNumberFrom 0 t

/-- The token without one trailing `H` or `h` (R72). -/
def dropSuffix (t : Text) : Text :=
  if t.getLast? = some 'H' ∨ t.getLast? = some 'h' then t.dropLast else t

/-- `[0-9A-Fa-f]+` (R72). -/
def isHexText (t : Text) : Bool := !t.isEmpty && t.all isHexDigit

/-- R72: a literal's value, none where the line is an error record, or the refusal of an ambiguous token. -/
def parseHex (token : Text) (max : Nat) : Except Refusal (Option Nat) :=
  let u := dropSuffix token
  if isHexText u then .ok (if hexNumber u ≤ max then some (hexNumber u) else none)
  else
    match u with
    | [] => .ok none
    | c :: _ => if isHexDigit c || c == '+' then .error .ambiguousHex else .ok none

/-- R71: a register token. -/
def parseReg (token : Text) : Except Refusal (Option Reg) :=
  match Reg.ofText token with
  | some r => .ok (some r)
  | none => if (Reg.ofText (upper token)).isSome then .error .caseFold else .ok none

/-- R73: an address token: a known label's address, or a hex value. -/
def parseAddr (labels : LabelTable) (token : Text) : Except Refusal (Option Nat) :=
  match labels.find token with
  | some a => if isHexText (dropSuffix token) then .error .labelHexClash else .ok (some a.toNat)
  | none => parseHex token Config.maxAddr16

/-- One operand token read as its position's kind; none where the line is an error record. -/
def readOperand (labels : LabelTable) (kind : OperandKind) (token : Text) : Except Refusal (Option Operand) :=
  match kind with
  | .reg => (parseReg token).map fun r => r.map .reg
  | .imm8 => (parseHex token Config.maxImm8).map fun n => n.map fun v => .num v
  | .addr16 => (parseAddr labels token).map fun n => n.map fun v => .num v

/-- The tokens read position by position; none where the count or a token is wrong (R76). A refusal comes before
validation: every token that has a position is read (log 18). -/
def readOperands (labels : LabelTable) : List OperandKind → List Text → Except Refusal (Option (List Operand))
  | [], [] => .ok (some [])
  | [], _ :: _ => .ok none
  | _ :: _, [] => .ok none
  | kind :: kinds, token :: tokens =>
    match readOperand labels kind token with
    | .error r => .error r
    | .ok first =>
      match readOperands labels kinds tokens with
      | .error r => .error r
      | .ok others => .ok (first.bind fun o => others.map fun os => o :: os)

/-! ### Pass 2: the records (R78) -/

/-- The text of an error record's message: any non-empty text (R61, D22; log 3). -/
def errorMessageText (lineNumber : Nat) (raw : Text) : Text :=
  (Config.errorText lineNumber raw).1 :: (Config.errorText lineNumber raw).2

/-- R61: an error record. Its mnemonic is the line's token (log 14). -/
def makeErrorRecord (mnemonic : Text) (address : Option Addr) (raw : Text) (lineNumber : Nat) : Record where
  mnemonic := mnemonic
  operands := []
  address := address
  raw := raw
  lineNumber := lineNumber
  error := true
  errorMessage := some (errorMessageText lineNumber raw)

/-- R78: the record of a line with a known mnemonic, from its operands or their failure to validate. -/
def knownRecord (m : Mnemonic) (operands : Option (List Operand)) (addr : Addr) (raw : Text) (lineNumber : Nat) :
    Record :=
  match operands with
  | some ops =>
    { mnemonic := m.text, operands := ops, address := some addr, raw := raw, lineNumber := lineNumber,
      error := false, errorMessage := none }
  | none => makeErrorRecord m.text (some addr) raw lineNumber

/-- R78: the record of a line that has a mnemonic token. -/
def lineRecord (labels : LabelTable) (lineNumber cur : Nat) (raw : Text) (code : Text × Text) :
    Except Refusal Record :=
  match splitOperands code.2 with
  | .error r => .error r
  | .ok tokens =>
    match Mnemonic.ofText code.1 with
    | none => .ok (makeErrorRecord code.1 none raw lineNumber)
    | some m =>
      (readOperands labels m.operandKinds tokens).map fun ops =>
        knownRecord m ops (BitVec.ofNat 16 cur) raw lineNumber

/-- R78 from a line number and a running address. -/
def pass2From (labels : LabelTable) (lineNumber cur : Nat) : List Text → Except Refusal (List Record)
  | [] => .ok []
  | raw :: lines =>
    match parseLine raw with
    | .error r => .error r
    | .ok p =>
      match p.code with
      | none => pass2From labels (lineNumber + 1) cur lines
      | some code =>
        match lineRecord labels lineNumber cur raw code with
        | .error r => .error r
        | .ok record => (pass2From labels (lineNumber + 1) (cur + p.size) lines).map fun rs => record :: rs

def pass2 (labels : LabelTable) (lines : List Text) : Except Refusal (List Record) := pass2From labels 1 0 lines

/-- R79: the records of a source text, valid and error records in source order, or the refusal of the source. -/
def assemble (source : Text) : Except Refusal (List Record) :=
  match pass1 (sourceLines source) with
  | .error r => .error r
  | .ok labels => pass2 labels (sourceLines source)

end Sys2Proof.Machine
end

