-- ==== Sys2Proof/Machine/Flags.lean ====
section
/-! DEFINITION. The flag rule (42_arithmetic.md R150 to R154). -/

namespace Sys2Proof.Machine

/-- `result & 0xFF`, that is `result mod 256`, for a negative integer too (R21). -/
def lowByte (result : Int) : Byte := BitVec.ofInt 8 result

/-- The number of 1 bits of a byte. -/
def popcount (v : Byte) : Nat := (List.range 8).countP fun k => v.getLsbD k

/-- Z: the stored byte is 0x00 (R151). -/
def zeroFlag (result : Int) : Bool := lowByte result == 0

/-- S: bit 7 of the stored byte (R152). -/
def signFlag (result : Int) : Bool := (lowByte result).getLsbD 7

/-- CY: the result lies above 0xFF or below 0 (R153, C2). -/
def carryFlag (result : Int) : Bool := decide (result > 0xFF ∨ result < 0)

/-- P: the stored byte has an even number of 1 bits (R154, C1). -/
def parityFlag (result : Int) : Bool := popcount (lowByte result) % 2 == 0

/-- R150: Z, S, CY and P are written together from the untruncated result; AC is not written (R29; log 9). -/
def updateFlags (result : Int) (f : Flags) : Flags :=
  { f with z := zeroFlag result, s := signFlag result, cy := carryFlag result, p := parityFlag result }

end Sys2Proof.Machine
end

