-- ==== Sys2Proof/Machine/Operands.lean ====
section
/-! DEFINITION. The operand forms: a register, an immediate, a direct address (R63). Registers are read and written
here and nowhere else. -/

namespace Sys2Proof.Machine

/-- `x[r]` (R24). -/
def CpuState.reg (c : CpuState) : Reg → Byte
  | .a => c.a
  | .b => c.b
  | .c => c.c
  | .d => c.d
  | .e => c.e
  | .h => c.h
  | .l => c.l

/-- `x[r] <- v` (R24). -/
def CpuState.setReg (c : CpuState) (r : Reg) (v : Byte) : CpuState :=
  match r with
  | .a => { c with a := v }
  | .b => { c with b := v }
  | .c => { c with c := v }
  | .d => { c with d := v }
  | .e => { c with e := v }
  | .h => { c with h := v }
  | .l => { c with l := v }

/-- A byte as the unsigned integer an untruncated sum or difference is formed from (R150, R163). -/
def operandInt (v : Byte) : Int := (v.toNat : Int)

end Sys2Proof.Machine
end

