-- ==== Sys2Proof/Machine/Ops.lean ====
section
/-! DEFINITION. The named operations over memory, PC and the control booleans, and the single-step contract every
meaning goes through. The machine has no exception entry and no return from one (R210, R221); what stands in their
place is the non-executing outcome of a step, `State.notExecuted`. -/

namespace Sys2Proof.Machine

/-! ### Memory (R40 to R43) -/

/-- The byte at a key of the list; an unlisted key reads 0x00 (R34, R50; log 12). -/
def Memory.lookup (key : Nat) : Memory → Byte
  | [] => 0x00
  | cell :: rest => if cell.1 = key then cell.2 else Memory.lookup key rest

/-- The list without the key's entries. -/
def Memory.erase (key : Nat) (m : Memory) : Memory := m.filter fun cell => cell.1 != key

/-- The list with an entry put before the first larger address. -/
def Memory.insert (key : Nat) (v : Byte) : Memory → Memory
  | [] => [(key, v)]
  | cell :: rest => if key < cell.1 then (key, v) :: cell :: rest else cell :: Memory.insert key v rest

/-- `MemRead(addr, 1)`: it changes no state and cannot fail (R42). -/
def Memory.read (m : Memory) (addr : Addr) : Byte := m.lookup addr.toNat

/-- `MemWrite(addr, 1, v)`: it changes that one cell and cannot fail (R43). A zero is what an unlisted address reads
as, so writing it only removes the entry. -/
def Memory.write (m : Memory) (addr : Addr) (v : Byte) : Memory :=
  if v = 0x00 then m.erase addr.toNat else (m.erase addr.toNat).insert addr.toNat v

def CpuState.load (c : CpuState) (addr : Addr) : Byte := c.mem.read addr

def CpuState.store (c : CpuState) (addr : Addr) (v : Byte) : CpuState := { c with mem := c.mem.write addr v }

/-! ### PC, arithmetic and the halt -/

/-- `PC += n`, which wraps modulo 65536 (R26). -/
def CpuState.advance (c : CpuState) (n : Nat) : CpuState := { c with pc := c.pc + BitVec.ofNat 16 n }

/-- `PC <- target` (R26, R180). -/
def CpuState.jump (c : CpuState) (target : Addr) : CpuState := { c with pc := target }

/-- The common part of `ADD`, `ADI`, `SUB` and `SUI`: flags from the untruncated result, then `A` its low byte
(R155, R157, R159, R161). -/
def CpuState.arith (c : CpuState) (result : Int) : CpuState :=
  { c with flags := updateFlags result c.flags, a := lowByte result }

/-- `halted <- 1` (R200, R113). -/
def CpuState.halt (c : CpuState) : CpuState := { c with halted := true }

/-- `running <- b` (R115; log 10). -/
def CpuState.setRunning (c : CpuState) (b : Bool) : CpuState := { c with running := b }

/-! ### The single-step contract (R101) -/

/-- The message of a step on a halted engine (R103). -/
def haltedMessage : Text := "CPU is halted".toList

/-- The message `HLT` returns (R200). -/
def hltMessage : Text := "CPU halted".toList

/-- The message of an unknown mnemonic (R104). -/
def unknownMessage (mnemonic : Text) : Text := "Unknown instruction: ".toList ++ mnemonic

/-- A step that does not execute: the outcome is reported and nothing else changes (R103, R104, R217). -/
def State.notExecuted (s : State) (message : Text) : State :=
  { s with outcome := some { executed := false, message := message } }

/-- A step that executes: the rule's effect on the CPU, with `executed = 1` (R101 step d, R106). -/
def State.executed (s : State) (message : Text) (effect : CpuState → CpuState) : State :=
  { s with cpu := effect s.cpu, outcome := some { executed := true, message := message } }

/-- Steps (b) and (d) of R101 for a known instruction: the halted check, then the instruction's rule. -/
def State.execute (s : State) (message : Text) (effect : CpuState → CpuState) :
    Host.Outcome State Fault Refusal :=
  if s.cpu.halted then .next (s.notExecuted haltedMessage) else .next (s.executed message effect)

/-- Steps (b) and (c) of R101 for an unknown mnemonic (R104). -/
def State.executeUnknown (s : State) (mnemonic : Text) : Host.Outcome State Fault Refusal :=
  if s.cpu.halted then .next (s.notExecuted haltedMessage) else .next (s.notExecuted (unknownMessage mnemonic))

end Sys2Proof.Machine
end

