-- ==== Sys2Proof/Machine/Arithmetic.lean ====
section
/-! DEFINITION. Arithmetic: ADD, ADI, SUB, SUI (42_arithmetic.md). The result is the untruncated integer (R150). -/

namespace Sys2Proof.Machine

/-- R155: `result <- x[A] + x[r]`; `PC += 1`. -/
def execAdd (r : Reg) (s : State) : Host.Outcome State Fault Refusal :=
  s.execute (Config.okMessage (.add r) s.cpu) fun c =>
    (c.arith (operandInt (c.reg .a) + operandInt (c.reg r))).advance 1

/-- R157: `result <- x[A] + v`; `PC += 2`. -/
def execAdi (v : Byte) (s : State) : Host.Outcome State Fault Refusal :=
  s.execute (Config.okMessage (.adi v) s.cpu) fun c =>
    (c.arith (operandInt (c.reg .a) + operandInt v)).advance 2

/-- R159: `result <- x[A] - x[r]`; `PC += 1`. -/
def execSub (r : Reg) (s : State) : Host.Outcome State Fault Refusal :=
  s.execute (Config.okMessage (.sub r) s.cpu) fun c =>
    (c.arith (operandInt (c.reg .a) - operandInt (c.reg r))).advance 1

/-- R161: `result <- x[A] - v`; `PC += 2`. -/
def execSui (v : Byte) (s : State) : Host.Outcome State Fault Refusal :=
  s.execute (Config.okMessage (.sui v) s.cpu) fun c =>
    (c.arith (operandInt (c.reg .a) - operandInt v)).advance 2

end Sys2Proof.Machine
end

