-- ==== Sys2Proof/Machine/Branch.lean ====
section
/-! DEFINITION. Control transfer: JMP (43_branch.md), and the lookup of its target in a program. -/

namespace Sys2Proof.Machine

/-- R180: `PC <- a`, with no increment on top. The run loop then looks the target up (R181). -/
def execJmp (addr : Addr) (s : State) : Host.Outcome State Fault Refusal :=
  s.execute (Config.okMessage (.jmp addr) s.cpu) fun c => c.jump addr

/-- R181: the least index whose record's `address` equals the target, or none (log 23).
It reads neither memory nor PC. -/
def lookupAddress (addr : Addr) : List Record → Option Nat
  | [] => none
  | r :: rs => if r.address = some addr then some 0 else (lookupAddress addr rs).map (· + 1)

end Sys2Proof.Machine
end

