-- ==== Sys2Proof/Machine/Control.lean ====
section
/-! DEFINITION. Machine control: HLT (45_control.md). -/

namespace Sys2Proof.Machine

/-- R200: `halted <- 1`; no PC change; message "CPU halted"; `executed = 1` (D24). -/
def execHlt (s : State) : Host.Outcome State Fault Refusal :=
  s.execute hltMessage fun c => c.halt

end Sys2Proof.Machine
end

