-- ==== Sys2Proof/Machine/DataTransfer.lean ====
section
/-! DEFINITION. Data transfer: MVI, MOV, LDA, STA (41_data_transfer.md). No flag is read or written. -/

namespace Sys2Proof.Machine

/-- R130: `x[r] <- v`; `PC += 2`. -/
def execMvi (r : Reg) (v : Byte) (s : State) : Host.Outcome State Fault Refusal :=
  s.execute (Config.okMessage (.mvi r v) s.cpu) fun c => (c.setReg r v).advance 2

/-- R132: `x[rd] <- x[rs]`; `PC += 1`. -/
def execMov (rd rs : Reg) (s : State) : Host.Outcome State Fault Refusal :=
  s.execute (Config.okMessage (.mov rd rs) s.cpu) fun c => (c.setReg rd (c.reg rs)).advance 1

/-- R134: `x[A] <- MemRead(a, 1)`; `PC += 3`. -/
def execLda (addr : Addr) (s : State) : Host.Outcome State Fault Refusal :=
  s.execute (Config.okMessage (.lda addr) s.cpu) fun c => (c.setReg .a (c.load addr)).advance 3

/-- R136: `MemWrite(a, 1, x[A])`; `PC += 3`. -/
def execSta (addr : Addr) (s : State) : Host.Outcome State Fault Refusal :=
  s.execute (Config.okMessage (.sta addr) s.cpu) fun c => (c.store addr (c.reg .a)).advance 3

end Sys2Proof.Machine
end

