-- ==== Sys2Proof/Machine/Logical.lean ====
section
/-! DEFINITION. Logical: CMA (44_logical.md). -/

namespace Sys2Proof.Machine

/-- R190: `x[A] <- 0xFF - x[A]`, the 8-bit complement; `PC += 1`; flags unaffected. -/
def execCma (s : State) : Host.Outcome State Fault Refusal :=
  s.execute (Config.okMessage .cma s.cpu) fun c => (c.setReg .a (0xFF - c.reg .a)).advance 1

end Sys2Proof.Machine
end

