-- ==== Sys2Proof/Machine/Dispatch.lean ====
section
/-! DEFINITION. The dispatch of R102: each decoded constructor has one rule. -/

namespace Sys2Proof.Machine

def exec (i : Instr) (s : State) : Host.Outcome State Fault Refusal :=
  match i with
  | .mvi r v => Sys2Proof.Machine.execMvi r v s
  | .mov rd rs => Sys2Proof.Machine.execMov rd rs s
  | .lda addr => Sys2Proof.Machine.execLda addr s
  | .sta addr => Sys2Proof.Machine.execSta addr s
  | .add r => Sys2Proof.Machine.execAdd r s
  | .adi v => Sys2Proof.Machine.execAdi v s
  | .sub r => Sys2Proof.Machine.execSub r s
  | .sui v => Sys2Proof.Machine.execSui v s
  | .jmp addr => Sys2Proof.Machine.execJmp addr s
  | .cma => Sys2Proof.Machine.execCma s
  | .hlt => Sys2Proof.Machine.execHlt s

end Sys2Proof.Machine
end

