-- ==== Sys2Proof/Machine/Executor.lean ====
section
/-! DEFINITION. The single-step contract `executeInstruction` (40_executor.md R100, R101). -/

namespace Sys2Proof.Machine

/-- The model's refusal for a record that does not decode (R215). -/
def refusalOf : RecordRefusal → Refusal
  | .errorRecord => .errorRecord
  | .malformedRecord => .malformedRecord

/-- Steps (b) to (d) of R101 on a decoded record. -/
def execDecoded (d : Decoded) (s : State) : Host.Outcome State Fault Refusal :=
  match d with
  | .known i => exec i s
  | .unknown name => s.executeUnknown name

/-- R101: decode, then the halted check, the unknown mnemonic, and the instruction's rule. A record that does not
decode is refused even on a halted engine (D31; log 26). -/
def executeInstruction (record : Record) (s : State) : Host.Outcome State Fault Refusal :=
  match decodeRecord record with
  | .error r => .refused (refusalOf r)
  | .ok d => execDecoded d s

/-- The rest of a computation after a step that answered a next state. -/
def onNext {α β : Type} (o : Host.Outcome α Fault Refusal) (k : α → β) : Host.Outcome β Fault Refusal :=
  match o with
  | .next a => .next (k a)
  | .fault f => .fault f
  | .refused r => .refused r

end Sys2Proof.Machine
end

