-- ==== Sys2Proof/WellFormed.lean ====
section
/-! DEFINITION. Well-formedness of what the host hands the machine: operands, records, programs. Every term of
`Instr` is well formed by its type (R63: a register, a `u8` or a `u16`). -/

namespace Sys2Proof

/-- The operand is of the kind asked for and within its width (R63). -/
def OperandKind.admits : OperandKind → Operand → Bool
  | .reg, .reg _ => true
  | .imm8, .num n => decide (0 ≤ n ∧ n ≤ 0xFF)
  | .addr16, .num n => decide (0 ≤ n ∧ n ≤ 0xFFFF)
  | _, _ => false

/-- Operands that have a shape: the count and, position by position, the kind (R64). -/
def operandsFit : List OperandKind → List Operand → Bool
  | [], [] => true
  | k :: ks, o :: os => k.admits o && operandsFit ks os
  | _, _ => false

/-- A record the executor gives a meaning to: no error record, and a known mnemonic has its shape (R62, R82). -/
def Record.wellFormed (r : Record) : Bool :=
  !r.error &&
    match Mnemonic.ofText r.mnemonic with
    | none => true
    | some m => operandsFit m.operandKinds r.operands

/-- An executable program holds no error record (R62). -/
def noErrorRecord (prog : List Record) : Bool := prog.all fun r => !r.error

/-- A program laid out as the assembler lays it out from address `cur`: every record is a known instruction, sits at
the running address, and ends within the 16-bit space (R66, R68, R80). -/
def laidOutFrom (cur : Nat) : List Record → Bool
  | [] => true
  | r :: rs =>
    match decodeRecord r with
    | .ok (.known i) =>
      r.address == some (BitVec.ofNat 16 cur) && decide (cur + i.size ≤ 0x10000) && laidOutFrom (cur + i.size) rs
    | _ => false

end Sys2Proof
end

