-- ==== Sys2Proof/Machine/RunLoop.lean ====
section
/-! DEFINITION. The run loop (40_executor.md R110 to R117). -/

namespace Sys2Proof.Machine

/-- The three ends of a run (R113). -/
inductive StopKind where
  | halt | endOfProgram | notFound
  deriving DecidableEq, Repr

/-- What one iteration of the loop answers: go on at an index, or stop with `run`'s return value (R117). -/
inductive LoopResult where
  | continueAt (idx : Nat)
  | stop (kind : StopKind) (ret : Option Nat)
  deriving DecidableEq, Repr

/-- Where the loop goes after the record at `idx` was stepped and the engine is not halted: to the target's index
after a `JMP`, by one otherwise (R112, R114). -/
def nextIndex (prog : List Record) (idx : Nat) : Decoded → LoopResult
  | .known (.jmp addr) =>
    match lookupAddress addr prog with
    | some j => .continueAt j
    | none => .stop .notFound none
  | _ => .continueAt (idx + 1)

/-- What the iteration answers after its step (R117): the halt comes before the jump. -/
def afterStep (prog : List Record) (idx : Nat) (d : Decoded) (s : State) : State × LoopResult :=
  (s, if s.cpu.halted then .stop .halt (some idx) else nextIndex prog idx d)

/-- R117's `runStep`: one iteration of the loop. The record is `prog[idx]`, not fetched from memory and not selected
by PC (R111; log 1); past the end the engine auto-halts. -/
def runStep (prog : List Record) (idx : Nat) (s : State) : Host.Outcome (State × LoopResult) Fault Refusal :=
  match prog[idx]? with
  | none => .next ({ s with cpu := s.cpu.halt }, .stop .endOfProgram (some idx))
  | some record =>
    match decodeRecord record with
    | .error r => .refused (refusalOf r)
    | .ok d => onNext (execDecoded d s) (afterStep prog idx d)

/-- `run`'s entry: `running <- 1` and `idx <- startIndex`; PC keeps its value (R110, R115, D32; log 24). -/
def State.enterRun (s : State) (prog : List Record) (idx : Nat) : State :=
  { s with loop := some { prog := prog, idx := idx }, cpu := s.cpu.setRunning true }

/-- `run`'s return: `running <- 0`, and the value goes to the host (R113, R115). -/
def State.leaveRun (s : State) (ret : Option Nat) : State :=
  { s with loop := none, cpu := s.cpu.setRunning false, reply := some (.finalIndex ret) }

/-- The state after an iteration: the loop at its next index, or the run returned. -/
def applyLoopResult (prog : List Record) (x : State × LoopResult) : State :=
  match x.2 with
  | .continueAt j => { x.1 with loop := some { prog := prog, idx := j } }
  | .stop _ ret => x.1.leaveRun ret

/-- One step of a run in flight (log 29). -/
def stepLoop (run : RunLoop) (s : State) : Host.Outcome State Fault Refusal :=
  onNext (runStep run.prog run.idx s) (applyLoopResult run.prog)

/-- What a bounded run answers; running out of fuel is no stop of the machine (R116). -/
inductive RunResult where
  | returned (kind : StopKind) (ret : Option Nat) (s : State)
  | refused (r : Refusal)
  | outOfFuel
  deriving DecidableEq, Repr

/-- R112's loop from an index, at most `fuel` iterations (R116, R117). -/
def iterateRun (prog : List Record) (fuel idx : Nat) (s : State) : RunResult :=
  match fuel with
  | 0 => .outOfFuel
  | n + 1 =>
    match runStep prog idx s with
    | .fault f => nomatch f
    | .refused r => .refused r
    | .next (t, .continueAt j) => iterateRun prog n j t
    | .next (t, .stop kind ret) => .returned kind ret (t.leaveRun ret)

/-- R117's `run(prog, k)` with fuel: `running <- 1`, the iterations, `running <- 0`. -/
def runBounded (fuel : Nat) (prog : List Record) (startIndex : Nat) (s : State) : RunResult :=
  iterateRun prog fuel startIndex (s.enterRun prog startIndex)

/-- The `run` call (R110): a natural `startIndex` and a program without error records, or a refusal
(log 15, log 22). -/
def callRun (prog : List Record) (startIndex : HostNumber) (s : State) : Host.Outcome State Fault Refusal :=
  if !noErrorRecord prog then .refused .errorRecord
  else
    match startIndex with
    | .nonInteger => .refused .badIndex
    | .int n => if n < 0 then .refused .badIndex else .next (s.enterRun prog n.toNat)

end Sys2Proof.Machine
end

