-- ==== Sys2Proof/Machine/HostCalls.lean ====
section
/-! DEFINITION. The external interface (40_executor.md R120 to R122), and the step of the whole machine: an iteration
of the run in flight, or the host's next call. -/

namespace Sys2Proof.Machine

/-- R120: a copy of the registers, flags and control booleans (log 27). -/
def CpuState.snapshot (c : CpuState) : Snapshot where
  a := c.a
  b := c.b
  c := c.c
  d := c.d
  e := c.e
  h := c.h
  l := c.l
  pc := c.pc
  sp := c.sp
  flags := c.flags
  halted := c.halted
  running := c.running

/-- R55: the map of `length` consecutive addresses from `start`, clipped to the address space, in rising order
(log 25). -/
def getMemory (c : CpuState) (start length : Int) : List (Text × Byte) :=
  let lo := (max start 0).toNat
  let hi := (min (start + length) Config.addressSpaceSize).toNat
  (List.range' lo (hi - lo)).map fun n => (hex4 (BitVec.ofNat 16 n), c.load (BitVec.ofNat 16 n))

/-- A call that has returned (R122). -/
def State.answer (s : State) (r : Reply) : State := { s with reply := some r }

/-- R240: every field of the CPU at its reset value. -/
def callReset (s : State) : State := { s with cpu := CpuState.reset, reply := some .nothing }

/-- R122's `assemble`: the records, or the refusal of the source. -/
def callAssemble (source : Text) (s : State) : Host.Outcome State Fault Refusal :=
  match assemble source with
  | .error r => .refused r
  | .ok rs => .next (s.answer (.records rs))

/-- The outcome of the step just made, handed to the host. -/
def State.answerOutcome (s : State) : State :=
  match s.outcome with
  | some o => s.answer (.outcome o)
  | none => s

/-- R122's `executeInstruction`: one step, its outcome handed to the host. -/
def callExecute (record : Record) (s : State) : Host.Outcome State Fault Refusal :=
  onNext (executeInstruction record s) State.answerOutcome

/-- R122's `getMemory`: integers, or a refusal (D9). -/
def callGetMemory (start length : HostNumber) (s : State) : Host.Outcome State Fault Refusal :=
  match start, length with
  | .int a, .int n => .next (s.answer (.cells (getMemory s.cpu a n)))
  | _, _ => .refused .badMemoryArgs

/-- One call of the host (R122). -/
def performCall (call : HostCall) (s : State) : Host.Outcome State Fault Refusal :=
  match call with
  | .assemble source => callAssemble source s
  | .reset => .next (callReset s)
  | .executeInstruction record => callExecute record s
  | .run prog startIndex => callRun prog startIndex s
  | .getMemory start length => callGetMemory start length s
  | .snapshot => .next (s.answer (.registers s.cpu.snapshot))

/-- The next call, when no run is in flight; with no call left the machine stays as it is (log 4, log 6). -/
def stepHost (s : State) : Host.Outcome State Fault Refusal :=
  match s.calls with
  | [] => .next s
  | call :: rest => performCall call { s with calls := rest }

/-- A step of the whole machine. -/
def stepMachine (s : State) : Host.Outcome State Fault Refusal :=
  match s.loop with
  | some run => stepLoop run s
  | none => stepHost s

/-- The record the machine is handed for a table word that is no instruction: it does not decode (log 8). -/
def undecodedRecord : Record where
  mnemonic := []
  operands := []
  address := none
  raw := []
  lineNumber := 1
  error := true
  errorMessage := none

/-- A run in flight whose next record is the table word's instruction, at the address PC holds (log 8). -/
def State.placeTableWord (s : State) (nbits w : Nat) : State :=
  match decodeTableWord nbits w with
  | some i => s.enterRun [i.toRecord s.cpu.pc] 0
  | none => s.enterRun [undecodedRecord] 0

end Sys2Proof.Machine
end

