-- ==== Sys2Proof/Machine/Step.lean ====
section
/-! DEFINITION. One step of the machine, and the host's way to place one instruction where it is fetched. -/

namespace Sys2Proof.Machine

/-- One step: an iteration of the run in flight, or the host's next call. -/
def step (s : State) : Host.Outcome State Fault Refusal := Sys2Proof.Machine.stepMachine s

/-- `s` with a program of that one instruction in flight, so that the very next step runs it (log 8). -/
def State.withFetchWord (s : State) (nbits w : Nat) : State := s.placeTableWord nbits w

end Sys2Proof.Machine
end

