-- ==== Sys2Proof/Safety.lean ====
section
/-! DEFINITION. What counts as a good state and an unchanged part of one, in the terms the claims use. -/

namespace Sys2Proof.Machine

/-- Ready, the opposite of Halted (R222). -/
abbrev State.Ready (s : State) : Prop := s.cpu.halted = false

/-- Every general register outside the list is unchanged. -/
abbrev CpuState.KeepsRegs (c c' : CpuState) (written : List Reg) : Prop :=
  ∀ r : Reg, r ∉ written → c'.reg r = c.reg r

/-- Every byte of memory reads as before. -/
abbrev CpuState.KeepsMemory (c c' : CpuState) : Prop := ∀ addr : Addr, c'.load addr = c.load addr

/-- What no instruction writes: SP (R27), and AC and `running`, by the spec's own decisions D3 and D4 (R29, R32; log 9,
log 10). -/
abbrev CpuState.KeepsUnwritten (c c' : CpuState) : Prop :=
  c'.sp = c.sp ∧ c'.flags.ac = c.flags.ac ∧ c'.running = c.running

/-- The flags after an operation whose untruncated result is `result` (R151 to R154), said on the integer: Z on the
result modulo 256, S on its bit 7, CY outside 0 to 255, P on its number of 1 bits. -/
abbrev FlagsFollow (result : Int) (after : Flags) : Prop :=
  (after.z = true ↔ result % 256 = 0) ∧
  (after.s = true ↔ 128 ≤ result % 256) ∧
  (after.cy = true ↔ 255 < result ∨ result < 0) ∧
  (after.p = true ↔ ((List.range 8).countP fun k => (result % 256).toNat.testBit k) % 2 = 0)

/-- The PC after a step of a ready engine: advanced by `n` modulo 65536 (R26). -/
abbrev PcAdvanced (n : Nat) (before after : Addr) : Prop := after.toNat = (before.toNat + n) % 65536

/-- The step reported `executed = 1` (R106). -/
abbrev State.ReportsExecuted (t : State) : Prop := ∃ m, t.outcome = some { executed := true, message := m }

/-- What no instruction touches outside the CPU: the run in flight with its program, the latest reply, and the host's
calls. -/
abbrev State.KeepsLoop (s t : State) : Prop := t.loop = s.loop ∧ t.reply = s.reply ∧ t.calls = s.calls

/-- The program and index of the run in flight agree with PC (R118): PC is the address of the record to come. -/
def State.PcAgrees (s : State) : Prop :=
  ∀ run, s.loop = some run → ∀ r, run.prog[run.idx]? = some r → r.address = some s.cpu.pc

/-- The program in flight, if any, is laid out as the assembler lays one out (R66, R80). -/
def State.ProgramLaidOut (s : State) : Prop := ∀ run, s.loop = some run → laidOutFrom 0 run.prog = true

/-- The invariant of the machine: the memory is canonical, `running` says whether a run is in flight (R115), and a
program in flight holds no error record (R62). -/
def State.Inv (s : State) : Prop :=
  s.cpu.mem.wf ∧ s.cpu.running = s.loop.isSome ∧ ∀ run, s.loop = some run → noErrorRecord run.prog = true

/-- The record this step executes: the run's next record, or the argument of the host's `executeInstruction` call. -/
def State.stepRecord? (s : State) : Option Record :=
  match s.loop, s.calls with
  | some run, _ => run.prog[run.idx]?
  | none, .executeInstruction record :: _ => some record
  | none, _ => none

/-- The instruction this step executes, if it executes one. -/
def State.stepInstr? (s : State) : Option Instr :=
  match s.stepRecord?.map decodeRecord with
  | some (.ok (.known i)) => some i
  | _ => none

/-- This step is the host's `reset()`. -/
def State.resetsNext (s : State) : Bool :=
  match s.loop, s.calls with
  | none, .reset :: _ => true
  | _, _ => false

/-- What an instruction can see: the general registers, the memory and `halted`; not the flags, SP, PC, `running` or
anything of the run loop (R25, R26, R27, R28). -/
abbrev CpuState.SameInputs (c c' : CpuState) : Prop :=
  (∀ r : Reg, c'.reg r = c.reg r) ∧ (∀ addr : Addr, c'.load addr = c.load addr) ∧ c'.halted = c.halted

/-- The known mnemonic on a line, when it has one (R66, R75). -/
def mnemonicOfLine (line : Text) : Option Mnemonic :=
  match parseLine line with
  | .ok p => p.mnemonic?
  | .error _ => none

/-- Every way to have the record executed is refused with this reason, in every state, halted or not: a step of the
record, the run loop's step that reaches it, and the host's call with it (R215, R216; D31). -/
def RefusedEverywhere (record : Record) (reason : Refusal) : Prop :=
  (∀ s : State, executeInstruction record s = .refused reason) ∧
  (∀ (s : State) (run : RunLoop), s.loop = some run → run.prog[run.idx]? = some record → step s = .refused reason) ∧
  (∀ (s : State) (rest : List HostCall), s.loop = none → s.calls = .executeInstruction record :: rest →
    step s = .refused reason)

/-- What a line adds to the address counter (R66). -/
def sizeOfLine (line : Text) : Nat :=
  match parseLine line with
  | .ok p => p.size
  | .error _ => 0

/-- The address pass 1 has counted before line `n` (R66): the sizes of the known mnemonics on the lines before it. -/
def addressBeforeLine : List Text → Nat → Nat
  | _, 0 => 0
  | [], _ + 1 => 0
  | line :: lines, n + 1 => sizeOfLine line + addressBeforeLine lines n

/-- The line carries a mnemonic token, so it gives a record (R69). -/
def carriesMnemonic (line : Text) : Bool :=
  match parseLine line with
  | .ok p => p.code.isSome
  | .error _ => false

/-- The lines that carry a mnemonic, each with its number counted from `n` (R69, R81). -/
def numberedCodeLines (n : Nat) : List Text → List (Nat × Text)
  | [] => []
  | line :: lines =>
    if carriesMnemonic line then (n, line) :: numberedCodeLines (n + 1) lines else numberedCodeLines (n + 1) lines

/-- What R26's table says of PC after each instruction on a ready engine. -/
def PcFollows (i : Instr) (before after : Addr) : Prop :=
  match i with
  | .mov _ _ => PcAdvanced 1 before after
  | .add _ => PcAdvanced 1 before after
  | .sub _ => PcAdvanced 1 before after
  | .cma => PcAdvanced 1 before after
  | .mvi _ _ => PcAdvanced 2 before after
  | .adi _ => PcAdvanced 2 before after
  | .sui _ => PcAdvanced 2 before after
  | .lda _ => PcAdvanced 3 before after
  | .sta _ => PcAdvanced 3 before after
  | .jmp addr => after = addr
  | .hlt => after = before

/-- R25's table: the register is one the instruction writes. -/
def WritesReg (r : Reg) (i : Instr) : Prop :=
  match i with
  | .mvi q _ => q = r
  | .mov q _ => q = r
  | .lda _ => r = .a
  | .add _ => r = .a
  | .adi _ => r = .a
  | .sub _ => r = .a
  | .sui _ => r = .a
  | .cma => r = .a
  | .sta _ => False
  | .jmp _ => False
  | .hlt => False

/-- The flag-affecting operations (R28). -/
def AffectsFlags (i : Instr) : Prop :=
  match i with
  | .add _ => True
  | .adi _ => True
  | .sub _ => True
  | .sui _ => True
  | .mvi _ _ => False
  | .mov _ _ => False
  | .lda _ => False
  | .sta _ => False
  | .jmp _ => False
  | .cma => False
  | .hlt => False

end Sys2Proof.Machine
end

