-- ==== Sys2Proof/Certificates/Slice0/Obligations.lean ====
section
/-! DEFINITION. The statements for the provers, from the spec's numbered rules. -/

open Sys2Proof Sys2Proof.Machine

/-! ### Reset (R36, R240, R243) -/

/-- R36: the values right after reset. That a fresh instance has them too is the spec's own decision (D5, log 11). -/
def Obligations.ResetValues : Prop :=
  (∀ r : Reg, State.reset.cpu.reg r = 0x00) ∧ State.reset.cpu.pc = 0x0000 ∧ State.reset.cpu.sp = 0xFFFF ∧
  State.reset.cpu.flags.z = false ∧ State.reset.cpu.flags.s = false ∧ State.reset.cpu.flags.cy = false ∧
  State.reset.cpu.flags.p = false ∧ State.reset.cpu.flags.ac = false ∧
  (∀ addr : Addr, State.reset.cpu.load addr = 0x00) ∧
  State.reset.cpu.halted = false ∧ State.reset.cpu.running = false

/-- R240: `reset()` from any state, Ready or Halted, puts every field of the CPU at its reset value, returns nothing,
and leaves the host's other calls as they are. -/
def Obligations.ResetCallResetsEveryField : Prop :=
  ∀ (s : State) (rest : List HostCall), s.loop = none → s.calls = .reset :: rest →
    ∃ t, step s = .next t ∧
      (∀ r : Reg, t.cpu.reg r = 0x00) ∧ t.cpu.pc = 0x0000 ∧ t.cpu.sp = 0xFFFF ∧
      t.cpu.flags = { z := false, s := false, cy := false, p := false, ac := false } ∧
      (∀ addr : Addr, t.cpu.load addr = 0x00) ∧ t.cpu.halted = false ∧ t.cpu.running = false ∧
      t.reply = some .nothing ∧ t.loop = none ∧ t.calls = rest

/-- R243: after `STA a` and then `reset()`, `getMemory(a, 1)` gives 0 for that address, whatever was stored. -/
def Obligations.ResetZeroesStoredCell : Prop :=
  ∀ (s t u : State) (addr : Addr) (rest : List HostCall), s.Ready → s.loop = none → s.calls = .reset :: rest →
    exec (.sta addr) s = .next t → step t = .next u →
    t.cpu.load addr = s.cpu.reg .a ∧ getMemory u.cpu addr.toNat 1 = [(hex4 addr, 0x00)]

/-! ### The eleven instructions on a ready engine: result, completion and frame -/

/-- R130. AC and `running` are kept by D3 and D4 (log 9, log 10). -/
def Obligations.MviResult : Prop :=
  ∀ (r : Reg) (v : Byte) (s : State), s.Ready →
    ∃ t, exec (.mvi r v) s = .next t ∧ t.cpu.reg r = v ∧ PcAdvanced 2 s.cpu.pc t.cpu.pc ∧ t.ReportsExecuted ∧
      s.cpu.KeepsRegs t.cpu [r] ∧ t.cpu.flags = s.cpu.flags ∧ s.cpu.KeepsMemory t.cpu ∧
      s.cpu.KeepsUnwritten t.cpu ∧ t.Ready ∧ s.KeepsLoop t

/-- R132: the source is read before the destination is written. AC and `running` are kept by D3 and D4 (log 9,
log 10). -/
def Obligations.MovResult : Prop :=
  ∀ (rd rs : Reg) (s : State), s.Ready →
    ∃ t, exec (.mov rd rs) s = .next t ∧ t.cpu.reg rd = s.cpu.reg rs ∧ PcAdvanced 1 s.cpu.pc t.cpu.pc ∧
      t.ReportsExecuted ∧ s.cpu.KeepsRegs t.cpu [rd] ∧ t.cpu.flags = s.cpu.flags ∧ s.cpu.KeepsMemory t.cpu ∧
      s.cpu.KeepsUnwritten t.cpu ∧ t.Ready ∧ s.KeepsLoop t

/-- R134: no flag is set by a load, and memory is unchanged. AC and `running` are kept by D3 and D4 (log 9, log 10). -/
def Obligations.LdaResult : Prop :=
  ∀ (addr : Addr) (s : State), s.Ready →
    ∃ t, exec (.lda addr) s = .next t ∧ t.cpu.reg .a = s.cpu.load addr ∧ PcAdvanced 3 s.cpu.pc t.cpu.pc ∧
      t.ReportsExecuted ∧ s.cpu.KeepsRegs t.cpu [.a] ∧ t.cpu.flags = s.cpu.flags ∧ s.cpu.KeepsMemory t.cpu ∧
      s.cpu.KeepsUnwritten t.cpu ∧ t.Ready ∧ s.KeepsLoop t

/-- R136: one cell is written, the one at the operand's address; every other byte reads as before. AC and
`running` are kept by D3 and D4 (log 9, log 10). -/
def Obligations.StaResult : Prop :=
  ∀ (addr : Addr) (s : State), s.Ready →
    ∃ t, exec (.sta addr) s = .next t ∧ t.cpu.load addr = s.cpu.reg .a ∧
      (∀ other : Addr, other ≠ addr → t.cpu.load other = s.cpu.load other) ∧ PcAdvanced 3 s.cpu.pc t.cpu.pc ∧
      t.ReportsExecuted ∧ s.cpu.KeepsRegs t.cpu [] ∧ t.cpu.flags = s.cpu.flags ∧
      s.cpu.KeepsUnwritten t.cpu ∧ t.Ready ∧ s.KeepsLoop t

/-- R155: both operands are read before A is written. AC and `running` are kept by D3 and D4 (log 9, log 10). -/
def Obligations.AddResult : Prop :=
  ∀ (r : Reg) (s : State), s.Ready →
    ∃ t, exec (.add r) s = .next t ∧
      ((t.cpu.reg .a).toNat : Int) = (((s.cpu.reg .a).toNat : Int) + ((s.cpu.reg r).toNat : Int)) % 256 ∧
      FlagsFollow (((s.cpu.reg .a).toNat : Int) + ((s.cpu.reg r).toNat : Int)) t.cpu.flags ∧
      PcAdvanced 1 s.cpu.pc t.cpu.pc ∧ t.ReportsExecuted ∧ s.cpu.KeepsRegs t.cpu [.a] ∧ s.cpu.KeepsMemory t.cpu ∧
      s.cpu.KeepsUnwritten t.cpu ∧ t.Ready ∧ s.KeepsLoop t

/-- R157. AC and `running` are kept by D3 and D4 (log 9, log 10). -/
def Obligations.AdiResult : Prop :=
  ∀ (v : Byte) (s : State), s.Ready →
    ∃ t, exec (.adi v) s = .next t ∧
      ((t.cpu.reg .a).toNat : Int) = (((s.cpu.reg .a).toNat : Int) + (v.toNat : Int)) % 256 ∧
      FlagsFollow (((s.cpu.reg .a).toNat : Int) + (v.toNat : Int)) t.cpu.flags ∧
      PcAdvanced 2 s.cpu.pc t.cpu.pc ∧ t.ReportsExecuted ∧ s.cpu.KeepsRegs t.cpu [.a] ∧ s.cpu.KeepsMemory t.cpu ∧
      s.cpu.KeepsUnwritten t.cpu ∧ t.Ready ∧ s.KeepsLoop t

/-- R159. AC and `running` are kept by D3 and D4 (log 9, log 10). -/
def Obligations.SubResult : Prop :=
  ∀ (r : Reg) (s : State), s.Ready →
    ∃ t, exec (.sub r) s = .next t ∧
      ((t.cpu.reg .a).toNat : Int) = (((s.cpu.reg .a).toNat : Int) - ((s.cpu.reg r).toNat : Int)) % 256 ∧
      FlagsFollow (((s.cpu.reg .a).toNat : Int) - ((s.cpu.reg r).toNat : Int)) t.cpu.flags ∧
      PcAdvanced 1 s.cpu.pc t.cpu.pc ∧ t.ReportsExecuted ∧ s.cpu.KeepsRegs t.cpu [.a] ∧ s.cpu.KeepsMemory t.cpu ∧
      s.cpu.KeepsUnwritten t.cpu ∧ t.Ready ∧ s.KeepsLoop t

/-- R161. AC and `running` are kept by D3 and D4 (log 9, log 10). -/
def Obligations.SuiResult : Prop :=
  ∀ (v : Byte) (s : State), s.Ready →
    ∃ t, exec (.sui v) s = .next t ∧
      ((t.cpu.reg .a).toNat : Int) = (((s.cpu.reg .a).toNat : Int) - (v.toNat : Int)) % 256 ∧
      FlagsFollow (((s.cpu.reg .a).toNat : Int) - (v.toNat : Int)) t.cpu.flags ∧
      PcAdvanced 2 s.cpu.pc t.cpu.pc ∧ t.ReportsExecuted ∧ s.cpu.KeepsRegs t.cpu [.a] ∧ s.cpu.KeepsMemory t.cpu ∧
      s.cpu.KeepsUnwritten t.cpu ∧ t.Ready ∧ s.KeepsLoop t

/-- R180: PC is the operand, with no increment on top; nothing else of the CPU changes. AC and
`running` are kept by D3 and D4 (log 9, log 10). -/
def Obligations.JmpResult : Prop :=
  ∀ (addr : Addr) (s : State), s.Ready →
    ∃ t, exec (.jmp addr) s = .next t ∧ t.cpu.pc = addr ∧ t.ReportsExecuted ∧
      s.cpu.KeepsRegs t.cpu [] ∧ t.cpu.flags = s.cpu.flags ∧ s.cpu.KeepsMemory t.cpu ∧
      s.cpu.KeepsUnwritten t.cpu ∧ t.Ready ∧ s.KeepsLoop t

/-- R190: flags unaffected, even when the new A is zero. AC and `running` are kept by D3 and D4 (log 9, log 10). -/
def Obligations.CmaResult : Prop :=
  ∀ s : State, s.Ready →
    ∃ t, exec .cma s = .next t ∧ (t.cpu.reg .a).toNat = 255 - (s.cpu.reg .a).toNat ∧ PcAdvanced 1 s.cpu.pc t.cpu.pc ∧
      t.ReportsExecuted ∧ s.cpu.KeepsRegs t.cpu [.a] ∧ t.cpu.flags = s.cpu.flags ∧ s.cpu.KeepsMemory t.cpu ∧
      s.cpu.KeepsUnwritten t.cpu ∧ t.Ready ∧ s.KeepsLoop t

/-- R200: the engine halts, PC stays, and the outcome is `(1, "CPU halted")`. `executed = 1` is the spec's own
decision (D24, log 21). AC and `running` are kept by D3 and D4 (log 9, log 10). -/
def Obligations.HltResult : Prop :=
  ∀ s : State, s.Ready →
    ∃ t, exec .hlt s = .next t ∧ t.cpu.halted = true ∧ t.cpu.pc = s.cpu.pc ∧
      t.outcome = some { executed := true, message := "CPU halted".toList } ∧
      s.cpu.KeepsRegs t.cpu [] ∧ t.cpu.flags = s.cpu.flags ∧ s.cpu.KeepsMemory t.cpu ∧
      s.cpu.KeepsUnwritten t.cpu ∧ s.KeepsLoop t

/-- R105, R210: no instruction faults and none is refused, in any state, halted or not. -/
def Obligations.EveryInstructionCompletes : Prop :=
  ∀ (i : Instr) (s : State), ∃ t, exec i s = .next t ∧ t.outcome.isSome = true

/-! ### The non-executing outcomes (R103, R104, R216) -/

/-- R103: on a halted engine every record that decodes gives `(0, "CPU is halted")` and nothing else changes. A record
that does not decode is refused by its reason, on a halted engine too; that the refusal comes first is the spec's own
decision (D31, log 26), as are its reasons (D10, log 15; D11, log 13). -/
def Obligations.HaltedStepChangesNothing : Prop :=
  (∀ (record : Record) (d : Decoded) (s : State), decodeRecord record = .ok d → s.cpu.halted = true →
    ∃ t, executeInstruction record s = .next t ∧ t.cpu = s.cpu ∧ s.KeepsLoop t ∧
      t.outcome = some { executed := false, message := "CPU is halted".toList }) ∧
  (∀ record : Record, record.error = true → RefusedEverywhere record .errorRecord) ∧
  (∀ (record : Record) (m : Mnemonic), record.error = false → record.mnemonic = m.text →
    operandsFit m.operandKinds record.operands = false → RefusedEverywhere record .malformedRecord)

/-- R104: an unknown mnemonic on a ready engine gives `(0, "Unknown instruction: <mnemonic>")` and nothing else
changes. -/
def Obligations.UnknownMnemonicChangesNothing : Prop :=
  ∀ (record : Record) (s : State), record.error = false → (∀ m : Mnemonic, record.mnemonic ≠ m.text) → s.Ready →
    ∃ t, executeInstruction record s = .next t ∧ t.cpu = s.cpu ∧ s.KeepsLoop t ∧
      t.outcome = some { executed := false, message := "Unknown instruction: ".toList ++ record.mnemonic }

/-! ### Flags and arithmetic laws (R150 to R154, R164) -/

/-- R151, R152, R154 and the formula of R153 (conflict C2, as the spec resolves it), on every integer result. -/
def Obligations.FlagRule : Prop :=
  ∀ (result : Int) (f : Flags), FlagsFollow result (updateFlags result f)

/-- R164 and R153: A is the sum or difference modulo 256; for an addition CY is the carry out of bit 7, for a
subtraction the borrow. -/
def Obligations.ArithmeticLaw : Prop :=
  ∀ (s : State) (r : Reg) (v : Byte), s.Ready →
    (∃ t, exec (.add r) s = .next t ∧ (t.cpu.reg .a).toNat = ((s.cpu.reg .a).toNat + (s.cpu.reg r).toNat) % 256 ∧
      (t.cpu.flags.cy = true ↔ 256 ≤ (s.cpu.reg .a).toNat + (s.cpu.reg r).toNat)) ∧
    (∃ t, exec (.adi v) s = .next t ∧ (t.cpu.reg .a).toNat = ((s.cpu.reg .a).toNat + v.toNat) % 256 ∧
      (t.cpu.flags.cy = true ↔ 256 ≤ (s.cpu.reg .a).toNat + v.toNat)) ∧
    (∃ t, exec (.sub r) s = .next t ∧ (t.cpu.reg .a).toNat = (256 + (s.cpu.reg .a).toNat - (s.cpu.reg r).toNat) % 256 ∧
      (t.cpu.flags.cy = true ↔ (s.cpu.reg .a).toNat < (s.cpu.reg r).toNat)) ∧
    (∃ t, exec (.sui v) s = .next t ∧ (t.cpu.reg .a).toNat = (256 + (s.cpu.reg .a).toNat - v.toNat) % 256 ∧
      (t.cpu.flags.cy = true ↔ (s.cpu.reg .a).toNat < v.toNat))

/-- R159's corner case: `SUB A` gives A = 0x00, Z = 1, S = 0, CY = 0, P = 1, whatever A was. -/
def Obligations.SubAClearsA : Prop :=
  ∀ s : State, s.Ready →
    ∃ t, exec (.sub .a) s = .next t ∧ t.cpu.reg .a = 0x00 ∧
      t.cpu.flags = { z := true, s := false, cy := false, p := true, ac := s.cpu.flags.ac }

/-- R190's corner case: two `CMA` in a row restore A. -/
def Obligations.CmaTwiceRestoresA : Prop :=
  ∀ s t u : State, s.Ready → exec .cma s = .next t → exec .cma t = .next u → u.cpu.reg .a = s.cpu.reg .a

/-! ### PC, and what no instruction reads or writes (R25 to R29, R53, R56, R67) -/

/-- R26's table, for every instruction on a ready engine; a step that does not execute leaves PC unchanged. -/
def Obligations.PcTable : Prop :=
  ∀ (i : Instr) (s t : State), exec i s = .next t →
    (s.Ready → PcFollows i s.cpu.pc t.cpu.pc) ∧ (s.cpu.halted = true → t.cpu.pc = s.cpu.pc)

/-- R67: the size table, and for every mnemonic but JMP and HLT the size is the instruction's PC increment. -/
def Obligations.SizeIsPcIncrement : Prop :=
  (Mnemonic.mvi.size = 2 ∧ Mnemonic.mov.size = 1 ∧ Mnemonic.lda.size = 3 ∧ Mnemonic.sta.size = 3 ∧
    Mnemonic.add.size = 1 ∧ Mnemonic.adi.size = 2 ∧ Mnemonic.sub.size = 1 ∧ Mnemonic.sui.size = 2 ∧
    Mnemonic.jmp.size = 3 ∧ Mnemonic.cma.size = 1 ∧ Mnemonic.hlt.size = 1) ∧
  ∀ (i : Instr) (s : State), s.Ready → i.mnemonic ≠ .jmp → i.mnemonic ≠ .hlt →
    ∃ t, exec i s = .next t ∧ PcAdvanced i.mnemonic.size s.cpu.pc t.cpu.pc

/-- R25's writers: a step of the machine that is no reset changes a general register only by executing an instruction
that the table gives as its writer. -/
def Obligations.RegisterWriters : Prop :=
  ∀ (s t : State) (r : Reg), step s = .next t → s.resetsNext = false → t.cpu.reg r ≠ s.cpu.reg r →
    ∃ i, s.stepInstr? = some i ∧ WritesReg r i

/-- R28: a step of the machine that is no reset changes a flag only by executing ADD, ADI, SUB or SUI. -/
def Obligations.FlagWriters : Prop :=
  ∀ s t : State, step s = .next t → s.resetsNext = false → t.cpu.flags ≠ s.cpu.flags →
    ∃ i, s.stepInstr? = some i ∧ AffectsFlags i

/-- R27 and R29: no step but a reset changes SP or AC. That AC is never written is the spec's own reading (D3,
log 9). -/
def Obligations.SpAndAcOnlyAtReset : Prop :=
  ∀ s t : State, step s = .next t → s.resetsNext = false →
    t.cpu.sp = s.cpu.sp ∧ t.cpu.flags.ac = s.cpu.flags.ac

/-- R56: memory changes only at reset, where every cell becomes 0x00, and when `STA` executes, which writes A to its
one cell. -/
def Obligations.MemoryWriters : Prop :=
  ∀ (s t : State) (addr : Addr), step s = .next t →
    (s.resetsNext = true → t.cpu.load addr = 0x00) ∧
    (s.resetsNext = false → t.cpu.load addr ≠ s.cpu.load addr →
      s.stepInstr? = some (.sta addr) ∧ t.cpu.load addr = s.cpu.reg .a)

/-- R25 to R28, R32: no instruction reads a flag, SP, `running`, or PC but for its own increment. Two states that agree
on registers, memory and `halted` agree on them after the same instruction, and on whether it executed; the flags an
arithmetic instruction writes agree, and no flag changes otherwise; PC is the target in both, or moves by the same
increment in both; SP stays. -/
def Obligations.FlagsPcSpSteerNothing : Prop :=
  ∀ (i : Instr) (s s' t t' : State), s.cpu.SameInputs s'.cpu → exec i s = .next t → exec i s' = .next t' →
    t.cpu.SameInputs t'.cpu ∧
    t.outcome.map (·.executed) = t'.outcome.map (·.executed) ∧
    (s.Ready → AffectsFlags i →
      t.cpu.flags.z = t'.cpu.flags.z ∧ t.cpu.flags.s = t'.cpu.flags.s ∧ t.cpu.flags.cy = t'.cpu.flags.cy ∧
      t.cpu.flags.p = t'.cpu.flags.p) ∧
    (s.cpu.halted = true ∨ ¬ AffectsFlags i → t.cpu.flags = s.cpu.flags ∧ t'.cpu.flags = s'.cpu.flags) ∧
    (s.Ready → ∀ addr, i = .jmp addr → t.cpu.pc = addr ∧ t'.cpu.pc = addr) ∧
    (s.cpu.halted = true ∨ (∀ addr, i ≠ .jmp addr) → t.cpu.pc - s.cpu.pc = t'.cpu.pc - s'.cpu.pc) ∧
    t.cpu.sp = s.cpu.sp ∧ t'.cpu.sp = s'.cpu.sp

/-- R53, R111: what the run loop executes next depends on the program, the index and `halted` alone: not on memory, PC
or any register. -/
def Obligations.FetchIgnoresMemoryAndPc : Prop :=
  ∀ s s' t t' : State, s.loop.isSome = true → s'.loop = s.loop → s'.cpu.halted = s.cpu.halted →
    step s = .next t → step s' = .next t' → t'.loop = t.loop ∧ t'.cpu.halted = t.cpu.halted

/-- R50: a load after a store reads the byte stored, or the byte that was there at any other address. -/
def Obligations.LoadAfterStore : Prop :=
  ∀ (s t u : State) (addr other : Addr), s.Ready → exec (.sta addr) s = .next t → exec (.lda other) t = .next u →
    u.cpu.reg .a = if other = addr then s.cpu.reg .a else s.cpu.load other

/-! ### The state machine Ready and Halted (R222) -/

/-- R222: Halted is terminal until `reset()`; `reset()` returns to Ready with the CPU cleared; the only moves to
Halted are `HLT` and the run loop's auto-halt past the end of the program. -/
def Obligations.ReadyAndHalted : Prop :=
  ∀ s t : State, step s = .next t →
    (s.resetsNext = true → t.cpu = CpuState.reset ∧ t.Ready) ∧
    (s.cpu.halted = true → s.resetsNext = false → t.cpu.halted = true) ∧
    (s.Ready → t.cpu.halted = true →
      s.stepInstr? = some .hlt ∨ ∃ run, s.loop = some run ∧ run.prog.length ≤ run.idx)

/-! ### Decoding and encoding (R82, R86) -/

/-- R82: the record decoder's answer in each case, and a known instruction has the record's mnemonic and operands. -/
def Obligations.RecordDecoding : Prop :=
  ∀ r : Record,
    (r.error = true → decodeRecord r = .error .errorRecord) ∧
    (r.error = false → (∀ m : Mnemonic, r.mnemonic ≠ m.text) → decodeRecord r = .ok (.unknown r.mnemonic)) ∧
    (∀ m : Mnemonic, r.error = false → r.mnemonic = m.text → operandsFit m.operandKinds r.operands = true →
      ∃ i, decodeRecord r = .ok (.known i) ∧ i.mnemonic = m ∧ i.operands = r.operands) ∧
    (∀ m : Mnemonic, r.error = false → r.mnemonic = m.text → operandsFit m.operandKinds r.operands = false →
      decodeRecord r = .error .malformedRecord)

/-- Decoding an instruction's record gives it back, with every operand at every value. -/
def Obligations.RecordRoundTrip : Prop :=
  ∀ (i : Instr) (addr : Addr), decodeRecord (i.toRecord addr) = .ok (.known i)

/-- Decoding an instruction's bytes gives it back with the bytes after it, with every operand at every value. The
byte patterns are R86's, general knowledge and not the machine's own (log 7). -/
def Obligations.ByteRoundTrip : Prop :=
  ∀ (i : Instr) (rest : List Byte), decodeBytes (encode i ++ rest) = .ok (i, rest)

/-- The other direction: bytes that decode are the encoding of what they decode to, so no two byte strings share an
instruction (log 7). -/
def Obligations.ByteDecodingUnique : Prop :=
  ∀ (bytes rest : List Byte) (i : Instr), decodeBytes bytes = .ok (i, rest) → bytes = encode i ++ rest

/-- Words written out from R86's byte patterns decode to the instructions they stand for (log 7). -/
def Obligations.WordsDecode : Prop :=
  decodeTableWord 16 (0b00001010 * 256 + 0b00000110) = some (.mvi .b 0x0A) ∧
  decodeTableWord 8 0b01001111 = some (.mov .c .a) ∧
  decodeTableWord 24 (0x20 * 65536 + 0x50 * 256 + 0b00111010) = some (.lda 0x2050) ∧
  decodeTableWord 8 0b10000111 = some (.add .a) ∧
  decodeTableWord 24 (0x00 * 65536 + 0x05 * 256 + 0b11000011) = some (.jmp 0x0005) ∧
  decodeTableWord 8 0b00101111 = some .cma ∧
  decodeTableWord 8 0b01110110 = some .hlt ∧
  decodeTableWord 8 0b01110000 = none

/-! ### A step runs the decoded instruction -/

/-- When the run's next record decodes to a known instruction, the step is `exec` of it, and then the loop's next
index or the run's return; when the host's call is `executeInstruction` of such a record, the step is `exec` of it, and
then its outcome is handed to the host (R101, R112, R117). -/
def Obligations.StepRunsDecodedRecord : Prop :=
  (∀ (s : State) (run : RunLoop) (record : Record) (i : Instr), s.loop = some run →
    run.prog[run.idx]? = some record → decodeRecord record = .ok (.known i) →
    step s = onNext (exec i s) fun t => applyLoopResult run.prog (afterStep run.prog run.idx (.known i) t)) ∧
  (∀ (s : State) (record : Record) (i : Instr) (rest : List HostCall), s.loop = none →
    s.calls = .executeInstruction record :: rest → decodeRecord record = .ok (.known i) →
    step s = onNext (exec i { s with calls := rest }) State.answerOutcome)

/-- The very next step after `withFetchWord` is `exec` of the table word's instruction, and then the loop's next index or
the run's return; its CPU and outcome are those of `exec` of that instruction on the state itself, `running` aside
(log 8). -/
def Obligations.FetchWordRuns : Prop :=
  ∀ (s : State) (nbits w : Nat) (i : Instr), decodeTableWord nbits w = some i →
    (s.withFetchWord nbits w).cpu = { s.cpu with running := true } ∧
    step (s.withFetchWord nbits w) =
      onNext (exec i (s.withFetchWord nbits w)) (fun t =>
        applyLoopResult [i.toRecord s.cpu.pc] (afterStep [i.toRecord s.cpu.pc] 0 (.known i) t)) ∧
    ∃ t u, step (s.withFetchWord nbits w) = .next t ∧ exec i s = .next u ∧
      t.cpu = { u.cpu with running := t.loop.isSome } ∧
      t.outcome.map (·.executed) = u.outcome.map (·.executed)

/-! ### The run loop (R110 to R119, R181) -/

/-- R181: the lookup gives the least index whose record has the address, and none when there is none. -/
def Obligations.LookupIsLeastIndex : Prop :=
  ∀ (addr : Addr) (prog : List Record),
    (∀ i, lookupAddress addr prog = some i ↔
      (∃ r, prog[i]? = some r ∧ r.address = some addr) ∧
        ∀ j r, j < i → prog[j]? = some r → r.address ≠ some addr) ∧
    (lookupAddress addr prog = none ↔ ∀ r ∈ prog, r.address ≠ some addr)

/-- R114: while the run goes on, the program stays and the index moves by one, unless the record was a `JMP`: then it
is the target's index. -/
def Obligations.OnlyJmpMovesIndex : Prop :=
  ∀ (s t : State) (run run' : RunLoop), s.loop = some run → step s = .next t → t.loop = some run' →
    s.Ready ∧ t.Ready ∧ run'.prog = run.prog ∧
    ∃ record d, run.prog[run.idx]? = some record ∧ decodeRecord record = .ok d ∧
      ((∃ addr, d = .known (.jmp addr) ∧ lookupAddress addr run.prog = some run'.idx ∧ t.cpu.pc = addr) ∨
        ((∀ addr, d ≠ .known (.jmp addr)) ∧ run'.idx = run.idx + 1))

/-- R113: a run returns in exactly one of three ways, each with its condition, `halted` and return value. -/
def Obligations.RunStops : Prop :=
  ∀ (s t : State) (run : RunLoop), s.loop = some run → step s = .next t → t.loop = none →
    (run.idx < run.prog.length ∧ t.cpu.halted = true ∧ t.reply = some (.finalIndex (some run.idx)) ∧
        (s.stepInstr? = some .hlt ∨ s.cpu.halted = true)) ∨
      (run.prog.length ≤ run.idx ∧ t.cpu.halted = true ∧ t.reply = some (.finalIndex (some run.idx))) ∨
      (run.idx < run.prog.length ∧ s.Ready ∧ t.Ready ∧ t.reply = some (.finalIndex none) ∧
        ∃ addr, s.stepInstr? = some (.jmp addr) ∧ lookupAddress addr run.prog = none ∧ t.cpu.pc = addr)

/-- The conditions of R113 lead to its stops: past the end the engine auto-halts without executing anything, a halted
engine and `HLT` stop at the index they are at, and a `JMP` without a target stops with none. `running` becomes 0 by
the spec's own decision (D4, log 10). -/
def Obligations.RunStopConditions : Prop :=
  ∀ (s : State) (run : RunLoop), s.loop = some run →
    (run.prog.length ≤ run.idx →
      step s = .next { s with cpu := { s.cpu with halted := true, running := false }, loop := none,
                              reply := some (.finalIndex (some run.idx)) }) ∧
    (∀ record d, run.prog[run.idx]? = some record → decodeRecord record = .ok d → s.cpu.halted = true →
      ∃ t, step s = .next t ∧ t.loop = none ∧ t.cpu = { s.cpu with running := false } ∧
        t.reply = some (.finalIndex (some run.idx))) ∧
    (∀ record, run.prog[run.idx]? = some record → decodeRecord record = .ok (.known .hlt) → s.Ready →
      ∃ t, step s = .next t ∧ t.loop = none ∧ t.cpu = { s.cpu with halted := true, running := false } ∧
        t.reply = some (.finalIndex (some run.idx))) ∧
    (∀ record addr, run.prog[run.idx]? = some record → decodeRecord record = .ok (.known (.jmp addr)) → s.Ready →
      lookupAddress addr run.prog = none →
      ∃ t, step s = .next t ∧ t.loop = none ∧ t.cpu = { s.cpu with pc := addr, running := false } ∧
        t.reply = some (.finalIndex none))

/-- R119: an unknown record in a program executes nothing and the loop moves on by one. -/
def Obligations.UnknownRecordMovesOn : Prop :=
  ∀ (s : State) (run : RunLoop) (record : Record), s.loop = some run → run.prog[run.idx]? = some record →
    record.error = false → (∀ m : Mnemonic, record.mnemonic ≠ m.text) → s.Ready →
    ∃ t, step s = .next t ∧ t.cpu = s.cpu ∧ t.loop = some { prog := run.prog, idx := run.idx + 1 } ∧
      t.outcome = some { executed := false, message := "Unknown instruction: ".toList ++ record.mnemonic }

/-- R110, R115: a `run` call on a program without error records and a natural start index begins the run there, with
`running` 1 and PC as it was; any other `run` call is refused (D25, D32, log 22, log 24). -/
def Obligations.RunEntry : Prop :=
  ∀ (s : State) (prog : List Record) (rest : List HostCall), s.loop = none →
    (∀ k : Nat, s.calls = .run prog (.int k) :: rest → noErrorRecord prog = true →
      ∃ t, step s = .next t ∧ t.loop = some { prog := prog, idx := k } ∧ t.cpu = { s.cpu with running := true } ∧
        t.calls = rest) ∧
    (∀ n, s.calls = .run prog n :: rest → noErrorRecord prog = false → step s = .refused .errorRecord) ∧
    (∀ n, s.calls = .run prog n :: rest → noErrorRecord prog = true → (n = .nonInteger ∨ ∃ k : Int, n = .int k ∧ k < 0) →
      step s = .refused .badIndex)

/-- A run over a program of well-formed records never faults and is never refused: every step of it completes
(R105, R210). -/
def Obligations.WellFormedRunNeverStuck : Prop :=
  ∀ (s : State) (run : RunLoop), s.loop = some run → (∀ r ∈ run.prog, r.wellFormed = true) → ∃ t, step s = .next t

/-- R117: the bounded loop and the machine's own steps agree: a run that returns within the fuel is reached by as
many steps at most, a refusal is reached, and a run out of fuel is still in flight after that many steps. That a step
of the machine is one iteration, and the form of the run with fuel, are the model's choice (log 29). -/
def Obligations.BoundedRunAgreesWithSteps : Prop :=
  ∀ (fuel : Nat) (s : State) (run : RunLoop), s.loop = some run →
    (∀ kind ret t, iterateRun run.prog fuel run.idx s = .returned kind ret t →
      t.loop = none ∧ t.reply = some (.finalIndex ret) ∧ ∃ n, n ≤ fuel ∧ Sys2Proof.core.run n s = .next t) ∧
    (∀ r, iterateRun run.prog fuel run.idx s = .refused r → ∃ n, n ≤ fuel ∧ Sys2Proof.core.run n s = .refused r) ∧
    (iterateRun run.prog fuel run.idx s = .outOfFuel →
      ∃ t, Sys2Proof.core.run fuel s = .next t ∧ t.loop.isSome = true)

/-- R118: in a laid-out program every step that is no `JMP` keeps the difference of PC and the address of the record to
come, and after a `JMP` that finds its target PC is that address. -/
def Obligations.PcOffsetKept : Prop :=
  ∀ (s t : State) (run run' : RunLoop) (r r' : Record) (a a' : Addr),
    s.loop = some run → laidOutFrom 0 run.prog = true → step s = .next t → t.loop = some run' →
    run.prog[run.idx]? = some r → r.address = some a → run'.prog[run'.idx]? = some r' → r'.address = some a' →
    ((∃ target, decodeRecord r = .ok (.known (.jmp target))) → t.cpu.pc = a') ∧
    ((∀ target, decodeRecord r ≠ .ok (.known (.jmp target))) → t.cpu.pc - a' = s.cpu.pc - a)

/-- R118's invariant: in a laid-out program PC is the address of the record to come before every iteration, if it was
before this one, or if this step is `run(prog, 0)` on an engine whose PC is 0. -/
def Obligations.PcIsRecordAddress : Prop :=
  (∀ s t : State, s.loop.isSome = true → s.ProgramLaidOut → s.PcAgrees → step s = .next t →
    t.ProgramLaidOut ∧ t.PcAgrees) ∧
  (∀ (s t : State) (prog : List Record) (rest : List HostCall), s.loop = none → s.calls = .run prog (.int 0) :: rest →
    laidOutFrom 0 prog = true → s.cpu.pc = 0x0000 → step s = .next t → t.ProgramLaidOut ∧ t.PcAgrees)

/-! ### The invariant of the machine -/

/-- Every step, of a run or of the host, keeps the invariant: the memory's canonical form, `running` exactly while a
run is in flight (R115), no error record in a program in flight (R62). -/
def Obligations.StepKeepsInvariant : Prop :=
  ∀ s t : State, s.Inv → step s = .next t → t.Inv

/-- The invariant holds at reset. -/
def Obligations.ResetMeetsInvariant : Prop := State.reset.Inv

/-! ### The host's interface (R55, R120, R122) -/

/-- R55: `getMemory` gives each address of the range within the address space, once, with the byte read there. That
the map's entries stand in rising order of address is the model's form of it (log 25). -/
def Obligations.GetMemoryMap : Prop :=
  ∀ (c : CpuState) (start length : Int),
    (∀ addr : Addr, (hex4 addr, c.load addr) ∈ getMemory c start length ↔
      start ≤ (addr.toNat : Int) ∧ (addr.toNat : Int) < start + length) ∧
    ((getMemory c start length).map (·.1)).Nodup ∧
    ∃ addrs : List Addr, getMemory c start length = addrs.map (fun addr => (hex4 addr, c.load addr)) ∧
      addrs.Pairwise fun x y => x.toNat < y.toNat

/-- R120, R122: the reading calls change neither the CPU nor the run loop: a snapshot holds every field but the
memory, `getMemory` its map, and an argument that is no integer is refused. -/
def Obligations.ReadingCallsChangeNothing : Prop :=
  ∀ (s : State) (rest : List HostCall), s.loop = none →
    (s.calls = .snapshot :: rest →
      ∃ t snap, step s = .next t ∧ t.cpu = s.cpu ∧ t.loop = none ∧ t.calls = rest ∧ t.reply = some (.registers snap) ∧
        snap.a = s.cpu.a ∧ snap.b = s.cpu.b ∧ snap.c = s.cpu.c ∧ snap.d = s.cpu.d ∧ snap.e = s.cpu.e ∧
        snap.h = s.cpu.h ∧ snap.l = s.cpu.l ∧ snap.pc = s.cpu.pc ∧ snap.sp = s.cpu.sp ∧ snap.flags = s.cpu.flags ∧
        snap.halted = s.cpu.halted ∧ snap.running = s.cpu.running) ∧
    (∀ a n : Int, s.calls = .getMemory (.int a) (.int n) :: rest →
      ∃ t, step s = .next t ∧ t.cpu = s.cpu ∧ t.loop = none ∧ t.calls = rest ∧
        t.reply = some (.cells (getMemory s.cpu a n))) ∧
    (∀ a n : HostNumber, s.calls = .getMemory a n :: rest → (a = .nonInteger ∨ n = .nonInteger) →
      step s = .refused .badMemoryArgs)

/-- R122, D29: no call is made while a run is in flight; with no run and no call the machine stays as it is
(log 4, log 6). -/
def Obligations.CallsWaitForTheRun : Prop :=
  ∀ s t : State, step s = .next t →
    (s.loop.isSome = true → t.calls = s.calls) ∧ (s.loop = none → s.calls = [] → t = s)

/-! ### The assembler (30_encoding.md) -/

/-- Assembling the one-line source of an instruction gives exactly its record, at every operand value: the assembler's
reading of registers, hex literals and separators is the inverse of writing them (R69, R72, R74, R76, R78). -/
def Obligations.AssembleSourceLine : Prop :=
  ∀ i : Instr, assemble i.source = .ok [i.toRecord 0x0000]

/-- R66, R68, R61: the record of a line with a known mnemonic, error record or not, sits at the sum of the sizes of the
known mnemonics on the lines before it and ends within the 16-bit space; the record of a line with an unknown mnemonic
is an error record with no address. Size 0 and no address for an unknown mnemonic, and the end within the space, are
the spec's own decisions (D19, D21, log 17). -/
def Obligations.AssembledAddresses : Prop :=
  ∀ (source : Text) (rs : List Record), assemble source = .ok rs → ∀ r ∈ rs,
    ∃ n line, r.lineNumber = n + 1 ∧ (sourceLines source)[n]? = some line ∧
      (∀ m, mnemonicOfLine line = some m →
        r.address = some (BitVec.ofNat 16 (addressBeforeLine (sourceLines source) n)) ∧
        addressBeforeLine (sourceLines source) n + m.size ≤ 0x10000) ∧
      (mnemonicOfLine line = none → r.error = true ∧ r.address = none)

/-- R80: a program assembled without an error record is laid out from address 0, each record where the one before it
ends. That every record ends within the 16-bit space is the spec's own decision (D21, log 17). -/
def Obligations.AssembledProgramLaidOut : Prop :=
  ∀ (source : Text) (rs : List Record), assemble source = .ok rs → noErrorRecord rs = true → laidOutFrom 0 rs = true

/-- R61, R63, C7: every record the assembler emits either is an error record with a non-empty message, or decodes to a
known instruction. -/
def Obligations.AssembledRecordsDecodeOrReport : Prop :=
  ∀ (source : Text) (rs : List Record), assemble source = .ok rs → ∀ r ∈ rs,
    (r.error = true ∧ ∃ c rest, r.errorMessage = some (c :: rest)) ∨
    (r.error = false ∧ ∃ i, decodeRecord r = .ok (.known i))

/-- R81 and the source's round trip: the records' line numbers and `raw` texts are exactly the lines that carry a
mnemonic, in order. `raw` as the whole line is the spec's own decision (D20, log 19). -/
def Obligations.RawRoundTrip : Prop :=
  ∀ (source : Text) (rs : List Record), assemble source = .ok rs →
    rs.map (fun r => (r.lineNumber, r.raw)) = numberedCodeLines 1 (sourceLines source)

/-- R77, R73, R78: pass 1 binds a label to the address counted before its line; and in a source that assembles, a line
`LDA`, `STA` or `JMP` whose one operand is that label, defined before or after, gives the record that decodes to the
instruction with that address. That the address is at most 0xFFFF is the spec's own decision (D21, log 17). -/
def Obligations.LabelsPointAtTheirLines : Prop :=
  (∀ (lines : List Text) (labels : LabelTable), pass1 lines = .ok labels →
    ∀ (n : Nat) (line name : Text) (code : Option (Text × Text)), lines[n]? = some line →
      parseLine line = .ok { label := some name, code := code } →
      labels.find name = some (BitVec.ofNat 16 (addressBeforeLine lines n)) ∧ addressBeforeLine lines n ≤ 0xFFFF) ∧
  (∀ (source : Text) (rs : List Record), assemble source = .ok rs →
    ∀ (n : Nat) (line name : Text) (code : Option (Text × Text)), (sourceLines source)[n]? = some line →
      parseLine line = .ok { label := some name, code := code } →
    ∀ (k : Nat) (user : Text) (label : Option Text) (m : Mnemonic) (text : Text), (sourceLines source)[k]? = some user →
      parseLine user = .ok { label := label, code := some (m.text, text) } → m.operandKinds = [.addr16] →
      splitOperands text = .ok [name] →
      ∃ r ∈ rs, r.lineNumber = k + 1 ∧ r.error = false ∧ ∃ i, decodeRecord r = .ok (.known i) ∧ i.mnemonic = m ∧
        i.operands = [.num (addressBeforeLine (sourceLines source) n)])

/-- R69: a line of whitespace, with or without a comment, produces nothing. -/
def Obligations.BlankAndCommentLines : Prop :=
  ∀ white comment : Text, (∀ c ∈ white, isWhite c = true) →
    (∀ c ∈ comment, isControl c = false ∨ c = '\t') →
    parseLine white = .ok { label := none, code := none } ∧
    parseLine (white ++ ';' :: comment) = .ok { label := none, code := none }
end

