-- ==== Sys2Proof/Laws/Decode.lean ====
section
/-! SUPPORT. The record decoder's answers, said once: names of mnemonics, and operands that have a shape (R64, R82). -/

namespace Sys2Proof

theorem ofText_text (m : Mnemonic) : Mnemonic.ofText m.text = some m := by cases m <;> decide

theorem text_of_ofText {t : Text} {m : Mnemonic} (h : Mnemonic.ofText t = some m) : t = m.text := by
  have := List.find?_some h
  exact (by simpa using this : m.text = t).symm

theorem ofText_none {t : Text} (h : ∀ m : Mnemonic, t ≠ m.text) : Mnemonic.ofText t = none := by
  simp only [Mnemonic.ofText, List.find?_eq_none]
  intro m _
  simpa using fun e => h m e.symm

theorem text_injective {m m' : Mnemonic} (h : m.text = m'.text) : m = m' := by
  have := ofText_text m
  rw [h, ofText_text] at this
  injection this with this
  exact this.symm

/-- A number that is a byte is an `imm8`. -/
theorem imm8_of_byte (v : Byte) : Operand.imm8? (.num v.toNat) = some v := by
  have := v.isLt
  simp [Operand.imm8?]
  omega

/-- A number that is an address is an `addr16`. -/
theorem addr16_of_addr (v : Addr) : Operand.addr16? (.num v.toNat) = some v := by
  have := v.isLt
  simp [Operand.addr16?]
  omega

/-- The decoder's two answers on a known mnemonic: the instruction with these operands, or nothing. -/
theorem decodeOperands_cases (m : Mnemonic) (ops : List Operand) :
    (operandsFit m.operandKinds ops = true →
      ∃ i, decodeOperands m ops = some i ∧ i.mnemonic = m ∧ i.operands = ops) ∧
    (operandsFit m.operandKinds ops = false → decodeOperands m ops = none) := by
  cases m <;> rcases ops with _ | ⟨x, _ | ⟨y, _ | ⟨z, l⟩⟩⟩ <;> (try cases x) <;> (try cases y) <;>
    simp [Mnemonic.operandKinds, operandsFit, OperandKind.admits, decodeOperands, decodeRegImm, decodeRegReg,
      decodeAddr, decodeReg, decodeImm, decodeNone, Operand.reg?, Operand.imm8?, Operand.addr16?, Instr.mnemonic,
      Instr.operands]
  all_goals
    rename_i n
    intro h1 h2
    exact ⟨⟨h1, h2⟩, by omega⟩

/-- All a decoded known instruction says of its record. -/
theorem decodeRecord_known {r : Record} {i : Instr} (h : decodeRecord r = .ok (.known i)) :
    r.error = false ∧ r.mnemonic = i.mnemonic.text ∧ r.operands = i.operands := by
  simp only [decodeRecord] at h
  split at h
  · exact nomatch h
  · rename_i he
    split at h
    · exact nomatch h
    · rename_i m hm
      split at h
      · rename_i j hj
        injection h with h
        injection h with h
        subst h
        cases hf : operandsFit m.operandKinds r.operands
        · rw [(decodeOperands_cases m r.operands).2 hf] at hj
          exact nomatch hj
        · obtain ⟨k, h1, h2, h3⟩ := (decodeOperands_cases m r.operands).1 hf
          rw [hj] at h1
          injection h1 with h1
          subst h1
          exact ⟨by simpa using he, h2 ▸ text_of_ofText hm, h3.symm⟩
      · exact nomatch h

/-- The two bytes of an address, put together again. -/
theorem addr_of_bytes (a : Addr) :
    BitVec.ofNat 16 ((BitVec.ofNat 8 (a.toNat / 256)).toNat * 256 + (BitVec.ofNat 8 a.toNat).toNat) = a := by
  apply BitVec.eq_of_toNat_eq
  have := a.isLt
  simp
  omega

/-- The address of two bytes, taken apart again. -/
theorem addrBytes_of_bytes (lo hi : Byte) :
    addrBytes (BitVec.ofNat 16 (hi.toNat * 256 + lo.toNat)) = [lo, hi] := by
  have := lo.isLt
  have := hi.isLt
  simp only [addrBytes]
  congr 1
  · apply BitVec.eq_of_toNat_eq
    simp
    omega
  · congr 1
    apply BitVec.eq_of_toNat_eq
    simp
    omega

theorem needReg_ok {op : Byte} {field : Option Reg} {r : Reg} (h : needReg op field = .ok r) : field = some r := by
  cases field with
  | none => exact nomatch h
  | some q =>
    injection h with h
    rw [h]

end Sys2Proof
end

