-- ==== Sys2Proof/Laws/Assembler.lean ====
section
/-! SUPPORT. What the assembler's two passes can do on one line, said once (R76 to R79), and what trimming and
splitting do to text without separators. -/

namespace Sys2Proof.Machine

/-! ### The passes -/

/-- All a pass-1 answer on a non-empty list of lines can be (R77). -/
theorem pass1From_cons {cur : Nat} {labels l : LabelTable} {line : Text} {lines : List Text}
    (h : pass1From cur labels (line :: lines) = .ok l) :
    ∃ p l' cur', parseLine line = .ok p ∧ bindLabel p.label cur labels = .ok l' ∧ nextAddress p cur = .ok cur' ∧
      pass1From cur' l' lines = .ok l := by
  simp only [pass1From] at h
  split at h
  · exact nomatch h
  · rename_i p hp
    split at h
    · exact nomatch h
    · rename_i l' hl
      split at h
      · exact nomatch h
      · rename_i cur' hc
        exact ⟨p, l', cur', hp, hl, hc, h⟩

/-- The running address after a line, and the room its record has (R66, R68). -/
theorem nextAddress_ok {p : ParsedLine} {cur cur' : Nat} (h : nextAddress p cur = .ok cur') :
    cur' = cur + p.size ∧ ∀ m, p.mnemonic? = some m → cur + m.size ≤ 0x10000 := by
  simp only [nextAddress] at h
  split at h
  · exact nomatch h
  · rename_i hn
    injection h with h
    refine ⟨h.symm, fun m hm => ?_⟩
    simp only [ParsedLine.size, hm, Config.addressSpaceSize] at hn
    simpa using hn

/-- All a pass-2 answer on a non-empty list of lines can be (R78). -/
theorem pass2From_cons {labels : LabelTable} {n cur : Nat} {raw : Text} {lines : List Text} {rs : List Record}
    (h : pass2From labels n cur (raw :: lines) = .ok rs) :
    ∃ p, parseLine raw = .ok p ∧
      ((p.code = none ∧ pass2From labels (n + 1) cur lines = .ok rs) ∨
        ∃ code record rs', p.code = some code ∧ lineRecord labels n cur raw code = .ok record ∧
          pass2From labels (n + 1) (cur + p.size) lines = .ok rs' ∧ rs = record :: rs') := by
  simp only [pass2From] at h
  cases hp : parseLine raw with
  | error e => simp [hp] at h
  | ok p =>
    simp only [hp] at h
    refine ⟨p, rfl, ?_⟩
    cases hc : p.code with
    | none =>
      simp only [hc] at h
      exact .inl ⟨rfl, h⟩
    | some code =>
      simp only [hc] at h
      cases hr : lineRecord labels n cur raw code with
      | error e => simp [hr] at h
      | ok record =>
        simp only [hr] at h
        cases hq : pass2From labels (n + 1) (cur + p.size) lines with
        | error e => simp [hq, Except.map] at h
        | ok rs' =>
          simp [hq, Except.map] at h
          exact .inr ⟨code, record, rs', rfl, hr, rfl, h.symm⟩

/-- All a line's record can be (R78). -/
theorem lineRecord_ok {labels : LabelTable} {n cur : Nat} {raw : Text} {code : Text × Text} {record : Record}
    (h : lineRecord labels n cur raw code = .ok record) :
    (Mnemonic.ofText code.1 = none ∧ record = makeErrorRecord code.1 none raw n) ∨
      ∃ m tokens ops, Mnemonic.ofText code.1 = some m ∧ readOperands labels m.operandKinds tokens = .ok ops ∧
        record = knownRecord m ops (BitVec.ofNat 16 cur) raw n := by
  simp only [lineRecord] at h
  split at h
  · exact nomatch h
  · rename_i tokens ht
    split at h
    · rename_i hm
      injection h with h
      exact .inl ⟨hm, h.symm⟩
    · rename_i m hm
      cases hr : readOperands labels m.operandKinds tokens with
      | error e => simp [hr, Except.map] at h
      | ok ops =>
        simp [hr, Except.map] at h
        exact .inr ⟨m, tokens, ops, hm, hr, h.symm⟩

@[simp] theorem knownRecord_address (m : Mnemonic) (ops : Option (List Operand)) (addr : Addr) (raw : Text) (n : Nat) :
    (knownRecord m ops addr raw n).address = some addr := by cases ops <;> rfl

@[simp] theorem knownRecord_raw (m : Mnemonic) (ops : Option (List Operand)) (addr : Addr) (raw : Text) (n : Nat) :
    (knownRecord m ops addr raw n).raw = raw := by cases ops <;> rfl

@[simp] theorem knownRecord_lineNumber (m : Mnemonic) (ops : Option (List Operand)) (addr : Addr) (raw : Text)
    (n : Nat) : (knownRecord m ops addr raw n).lineNumber = n := by cases ops <;> rfl

/-- The two passes of a source that is not refused (R79). -/
theorem assemble_ok {source : Text} {rs : List Record} (h : assemble source = .ok rs) :
    ∃ labels, pass1 (sourceLines source) = .ok labels ∧ pass2 labels (sourceLines source) = .ok rs := by
  simp only [assemble] at h
  split at h
  · exact nomatch h
  · exact ⟨_, ‹_›, h⟩

/-! ### Operands -/

/-- A literal that is read lies within its bound (R72). -/
theorem parseHex_le {token : Text} {max n : Nat} (h : parseHex token max = .ok (some n)) : n ≤ max := by
  simp only [parseHex] at h
  split at h
  · split at h
    · rename_i hle
      injection h with h
      injection h with h
      exact h ▸ hle
    · exact nomatch h
  · split at h
    · exact nomatch h
    · split at h <;> exact nomatch h

/-- An operand that is read is of the kind asked for and within its width (R63). -/
theorem readOperand_admits {labels : LabelTable} {k : OperandKind} {token : Text} {o : Operand}
    (h : readOperand labels k token = .ok (some o)) : k.admits o = true := by
  cases k with
  | reg =>
    simp only [readOperand] at h
    cases hr : parseReg token with
    | error e => simp [hr, Except.map] at h
    | ok r =>
      cases r <;> simp [hr, Except.map] at h
      subst h
      rfl
  | imm8 =>
    simp only [readOperand] at h
    cases hr : parseHex token Config.maxImm8 with
    | error e => simp [hr, Except.map] at h
    | ok r =>
      cases r with
      | none => simp [hr, Except.map] at h
      | some v =>
        have hle := parseHex_le hr
        simp [hr, Except.map] at h
        subst h
        simp [OperandKind.admits, Config.maxImm8] at hle ⊢
        omega
  | addr16 =>
    simp only [readOperand] at h
    cases hr : parseAddr labels token with
    | error e => simp [hr, Except.map] at h
    | ok r =>
      cases r with
      | none => simp [hr, Except.map] at h
      | some v =>
        simp [hr, Except.map] at h
        subst h
        have hle : v ≤ 0xFFFF := by
          simp only [parseAddr] at hr
          split at hr
          · rename_i a ha
            split at hr
            · exact nomatch hr
            · injection hr with hr
              injection hr with hr
              have := a.isLt
              omega
          · exact parseHex_le hr
        simp [OperandKind.admits]
        omega

/-- A known label in an address position reads as its address, or refuses the source (R73). -/
theorem readOperand_label {labels : LabelTable} {token : Text} {a : Addr} {o : Option Operand}
    (hl : labels.find token = some a) (h : readOperand labels .addr16 token = .ok o) : o = some (.num a.toNat) := by
  simp only [readOperand, parseAddr, hl] at h
  split at h
  · exact nomatch h
  · injection h with h
    exact h.symm

/-- Operands that are read have the mnemonic's shape (R64). -/
theorem readOperands_fit {labels : LabelTable} : ∀ {kinds : List OperandKind} {tokens : List Text} {os : List Operand},
    readOperands labels kinds tokens = .ok (some os) → operandsFit kinds os = true := by
  intro kinds
  induction kinds with
  | nil =>
    intro tokens os h
    cases tokens <;> simp [readOperands] at h
    subst h
    rfl
  | cons k kinds ih =>
    intro tokens os h
    cases tokens with
    | nil => simp [readOperands] at h
    | cons token tokens =>
      simp only [readOperands] at h
      split at h
      · exact nomatch h
      · rename_i first hf
        split at h
        · exact nomatch h
        · rename_i others ho
          injection h with h
          cases first with
          | none => simp at h
          | some o =>
            cases others with
            | none => simp at h
            | some os' =>
              simp at h
              subst h
              simp [operandsFit, readOperand_admits hf, ih ho]

/-! ### The label table -/

/-- A label looked up in a table with one more entry: the entries before it come first (R77). -/
theorem find_append (labels : LabelTable) (x y : Text) (a : Addr) :
    LabelTable.find (labels ++ [(y, a)]) x =
      match labels.find x with
      | some b => some b
      | none => if y = x then some a else none := by
  simp only [LabelTable.find, List.find?_append]
  cases h : List.find? (fun entry => entry.1 == x) labels <;> simp

/-! ### Text -/

/-- Text that neither begins nor ends with whitespace is left as it is. -/
theorem trim_eq_self {l : Text} (h1 : ∀ c, l.head? = some c → isWhite c = false)
    (h2 : ∀ c, l.getLast? = some c → isWhite c = false) : trim l = l := by
  have e1 : trimLeft l = l := by
    cases l with
    | nil => rfl
    | cons x xs => simp [trimLeft, h1 x rfl]
  have e2 : trimLeft l.reverse = l.reverse := by
    cases h : l.reverse with
    | nil => rfl
    | cons x xs =>
      have : l.getLast? = some x := by
        rw [← List.head?_reverse, h]
        rfl
      simp [trimLeft, h2 x this]
  simp [trim, e1, e2]

theorem splitAtChar_plain {sep : Char} {l : Text} (h : ∀ c ∈ l, (c == sep) = false) : splitAtChar sep l = [l] := by
  induction l with
  | nil => rfl
  | cons x xs ih => simp [splitAtChar, ih fun c hc => h c (by simp [hc]), h x (by simp)]

theorem splitWhiteFrom_plain {l : Text} (h : ∀ c ∈ l, isWhite c = false) :
    ∀ word : Text, (word ≠ [] ∨ l ≠ []) → splitWhiteFrom word l = [word.reverse ++ l] := by
  induction l with
  | nil => intro word hw; cases word <;> simp_all [splitWhiteFrom]
  | cons x xs ih =>
    intro word _
    simp [splitWhiteFrom, h x (by simp), ih (fun c hc => h c (by simp [hc])) (x :: word) (by simp)]

/-- A literal with its suffix is read as its digits' value (R72). -/
theorem parseHex_suffix {l : Text} {n max : Nat} (hne : l ≠ []) (h : ∀ c ∈ l, isHexDigit c = true)
    (hn : hexNumber l = n) (hmax : n ≤ max) : parseHex (l ++ ['H']) max = .ok (some n) := by
  have hd : dropSuffix (l ++ ['H']) = l := by simp [dropSuffix]
  have hx : isHexText l = true := by
    simp [isHexText, hne]
    exact h
  simp [parseHex, hd, hx, hn, hmax]

/-- The digit written for a number below 16 is read as that number. -/
theorem hexValue_hexDigit : ∀ n < 16, hexValue (hexDigit n) = some n := by decide

end Sys2Proof.Machine
end

