-- ==== Sys2Proof/Laws/Memory.lean ====
section
/-! SUPPORT. The laws of memory: a read after a write, the rest unchanged, and the canonical form kept. -/

namespace Sys2Proof.Machine

theorem lookup_erase_self (key : Nat) (m : Memory) : (m.erase key).lookup key = 0 := by
  induction m with
  | nil => rfl
  | cons cell rest ih =>
    by_cases h : cell.1 = key <;> simp_all [Memory.erase, Memory.lookup]

theorem lookup_erase_ne {key other : Nat} (h : other ≠ key) (m : Memory) :
    (m.erase key).lookup other = m.lookup other := by
  induction m with
  | nil => rfl
  | cons cell rest ih =>
    by_cases hk : cell.1 = key
    · have : cell.1 ≠ other := fun e => h (e ▸ hk)
      simp_all [Memory.erase, Memory.lookup]
    · by_cases ho : cell.1 = other <;> simp_all [Memory.erase, Memory.lookup]

theorem lookup_insert_ne {key other : Nat} (h : other ≠ key) (v : Byte) (m : Memory) :
    (Memory.insert key v m).lookup other = m.lookup other := by
  induction m with
  | nil => simp [Memory.insert, Memory.lookup, h.symm]
  | cons cell rest ih =>
    simp only [Memory.insert]
    split
    · simp [Memory.lookup, h.symm]
    · simp [Memory.lookup, ih]

theorem lookup_insert_self (key : Nat) (v : Byte) (m : Memory) (h : ∀ cell ∈ m, cell.1 ≠ key) :
    (Memory.insert key v m).lookup key = v := by
  induction m with
  | nil => simp [Memory.insert, Memory.lookup]
  | cons cell rest ih =>
    simp only [Memory.insert]
    split
    · simp [Memory.lookup]
    · simp [Memory.lookup, h cell (by simp), ih fun x hx => h x (by simp [hx])]

theorem mem_erase {key : Nat} {m : Memory} {cell : Host.Cell} (h : cell ∈ m.erase key) :
    cell ∈ m ∧ cell.1 ≠ key := by
  simpa [Memory.erase] using h

theorem mem_insert {key : Nat} {v : Byte} {m : Memory} {cell : Host.Cell} (h : cell ∈ Memory.insert key v m) :
    cell = (key, v) ∨ cell ∈ m := by
  induction m with
  | nil => simpa [Memory.insert] using h
  | cons x rest ih =>
    simp only [Memory.insert] at h
    split at h
    · simpa using h
    · rcases List.mem_cons.1 h with h | h
      · exact .inr (by simp [h])
      · exact (ih h).imp id fun h => by simp [h]

/-- A read after a write to the same address gives the byte written, whatever the list (R43, R50). -/
@[simp] theorem read_write_self (m : Memory) (addr : Addr) (v : Byte) : (m.write addr v).read addr = v := by
  unfold Memory.write Memory.read
  split
  · rename_i h
    rw [h]
    exact lookup_erase_self _ _
  · exact lookup_insert_self _ _ _ fun cell hc => (mem_erase hc).2

/-- A write leaves every other address alone (R43). -/
theorem read_write_ne (m : Memory) {addr other : Addr} (h : other ≠ addr) (v : Byte) :
    (m.write addr v).read other = m.read other := by
  have hn : other.toNat ≠ addr.toNat := fun e => h (BitVec.eq_of_toNat_eq e)
  unfold Memory.write Memory.read
  split
  · exact lookup_erase_ne hn m
  · rw [lookup_insert_ne hn, lookup_erase_ne hn]

theorem wf_erase {m : Memory} (key : Nat) (h : m.wf) : (m.erase key).wf :=
  ⟨h.1.filter _, fun c hc => h.2 c (mem_erase hc).1⟩

theorem pairwise_insert {m : Memory} (key : Nat) (v : Byte) (h : m.Pairwise fun x y => x.1 < y.1)
    (hk : ∀ c ∈ m, c.1 ≠ key) : (Memory.insert key v m).Pairwise fun x y => x.1 < y.1 := by
  induction m with
  | nil => simp [Memory.insert]
  | cons cell rest ih =>
    have hrest := List.pairwise_cons.1 h
    have hne : cell.1 ≠ key := hk cell (by simp)
    simp only [Memory.insert]
    split
    · rename_i hlt
      refine List.pairwise_cons.2 ⟨fun c hc => ?_, h⟩
      rcases List.mem_cons.1 hc with rfl | hc
      · exact hlt
      · exact Nat.lt_trans hlt (hrest.1 c hc)
    · rename_i hge
      refine List.pairwise_cons.2 ⟨fun c hc => ?_, ih hrest.2 fun c hc => hk c (by simp [hc])⟩
      rcases mem_insert hc with rfl | hc
      · exact Nat.lt_of_le_of_ne (Nat.not_lt.1 hge) hne
      · exact hrest.1 c hc

/-- Every write keeps the canonical form. -/
theorem wf_write {m : Memory} (addr : Addr) (v : Byte) (h : m.wf) : (m.write addr v).wf := by
  unfold Memory.write
  split
  · exact wf_erase _ h
  · rename_i hv
    refine ⟨pairwise_insert _ _ (wf_erase _ h).1 fun c hc => (mem_erase hc).2, fun c hc => ?_⟩
    rcases mem_insert hc with rfl | hc
    · exact ⟨addr.isLt, hv⟩
    · exact (wf_erase _ h).2 c hc

/-- The memory after reset has the canonical form. -/
theorem wf_reset : CpuState.reset.mem.wf := by decide

@[simp] theorem load_store_self (c : CpuState) (addr : Addr) (v : Byte) : (c.store addr v).load addr = v :=
  read_write_self _ _ _

theorem load_store_ne (c : CpuState) {addr other : Addr} (h : other ≠ addr) (v : Byte) :
    (c.store addr v).load other = c.load other :=
  read_write_ne _ h v

end Sys2Proof.Machine
end

