-- ==== Sys2Proof/Laws/State.lean ====
section
/-! SUPPORT. One lemma per field per update, all by definition, so that no proof unfolds a record update. -/

namespace Sys2Proof.Machine

/-! ### PC updates -/

@[simp] theorem advance_reg (c : CpuState) (n : Nat) (r : Reg) : (c.advance n).reg r = c.reg r := by cases r <;> rfl
@[simp] theorem advance_pc (c : CpuState) (n : Nat) : (c.advance n).pc = c.pc + BitVec.ofNat 16 n := rfl
@[simp] theorem advance_sp (c : CpuState) (n : Nat) : (c.advance n).sp = c.sp := rfl
@[simp] theorem advance_flags (c : CpuState) (n : Nat) : (c.advance n).flags = c.flags := rfl
@[simp] theorem advance_mem (c : CpuState) (n : Nat) : (c.advance n).mem = c.mem := rfl
@[simp] theorem advance_load (c : CpuState) (n : Nat) (addr : Addr) : (c.advance n).load addr = c.load addr := rfl
@[simp] theorem advance_halted (c : CpuState) (n : Nat) : (c.advance n).halted = c.halted := rfl
@[simp] theorem advance_running (c : CpuState) (n : Nat) : (c.advance n).running = c.running := rfl

@[simp] theorem jump_reg (c : CpuState) (t : Addr) (r : Reg) : (c.jump t).reg r = c.reg r := by cases r <;> rfl
@[simp] theorem jump_pc (c : CpuState) (t : Addr) : (c.jump t).pc = t := rfl
@[simp] theorem jump_sp (c : CpuState) (t : Addr) : (c.jump t).sp = c.sp := rfl
@[simp] theorem jump_flags (c : CpuState) (t : Addr) : (c.jump t).flags = c.flags := rfl
@[simp] theorem jump_mem (c : CpuState) (t : Addr) : (c.jump t).mem = c.mem := rfl
@[simp] theorem jump_load (c : CpuState) (t addr : Addr) : (c.jump t).load addr = c.load addr := rfl
@[simp] theorem jump_halted (c : CpuState) (t : Addr) : (c.jump t).halted = c.halted := rfl
@[simp] theorem jump_running (c : CpuState) (t : Addr) : (c.jump t).running = c.running := rfl

/-! ### The halt -/

@[simp] theorem halt_reg (c : CpuState) (r : Reg) : c.halt.reg r = c.reg r := by cases r <;> rfl
@[simp] theorem halt_pc (c : CpuState) : c.halt.pc = c.pc := rfl
@[simp] theorem halt_sp (c : CpuState) : c.halt.sp = c.sp := rfl
@[simp] theorem halt_flags (c : CpuState) : c.halt.flags = c.flags := rfl
@[simp] theorem halt_mem (c : CpuState) : c.halt.mem = c.mem := rfl
@[simp] theorem halt_load (c : CpuState) (addr : Addr) : c.halt.load addr = c.load addr := rfl
@[simp] theorem halt_halted (c : CpuState) : c.halt.halted = true := rfl
@[simp] theorem halt_running (c : CpuState) : c.halt.running = c.running := rfl

/-! ### `running` -/

@[simp] theorem setRunning_reg (c : CpuState) (b : Bool) (r : Reg) : (c.setRunning b).reg r = c.reg r := by
  cases r <;> rfl
@[simp] theorem setRunning_pc (c : CpuState) (b : Bool) : (c.setRunning b).pc = c.pc := rfl
@[simp] theorem setRunning_sp (c : CpuState) (b : Bool) : (c.setRunning b).sp = c.sp := rfl
@[simp] theorem setRunning_flags (c : CpuState) (b : Bool) : (c.setRunning b).flags = c.flags := rfl
@[simp] theorem setRunning_mem (c : CpuState) (b : Bool) : (c.setRunning b).mem = c.mem := rfl
@[simp] theorem setRunning_load (c : CpuState) (b : Bool) (addr : Addr) :
    (c.setRunning b).load addr = c.load addr := rfl
@[simp] theorem setRunning_halted (c : CpuState) (b : Bool) : (c.setRunning b).halted = c.halted := rfl
@[simp] theorem setRunning_running (c : CpuState) (b : Bool) : (c.setRunning b).running = b := rfl
theorem setRunning_self (c : CpuState) : c.setRunning c.running = c := rfl

/-! ### Register writes -/

@[simp] theorem setReg_reg_self (c : CpuState) (r : Reg) (v : Byte) : (c.setReg r v).reg r = v := by cases r <;> rfl

theorem setReg_reg_ne (c : CpuState) {r q : Reg} (h : q ≠ r) (v : Byte) : (c.setReg r v).reg q = c.reg q := by
  cases r <;> cases q <;> first | rfl | exact absurd rfl h

@[simp] theorem setReg_pc (c : CpuState) (r : Reg) (v : Byte) : (c.setReg r v).pc = c.pc := by cases r <;> rfl
@[simp] theorem setReg_sp (c : CpuState) (r : Reg) (v : Byte) : (c.setReg r v).sp = c.sp := by cases r <;> rfl
@[simp] theorem setReg_flags (c : CpuState) (r : Reg) (v : Byte) : (c.setReg r v).flags = c.flags := by
  cases r <;> rfl
@[simp] theorem setReg_mem (c : CpuState) (r : Reg) (v : Byte) : (c.setReg r v).mem = c.mem := by cases r <;> rfl
@[simp] theorem setReg_load (c : CpuState) (r : Reg) (v : Byte) (addr : Addr) :
    (c.setReg r v).load addr = c.load addr := by cases r <;> rfl
@[simp] theorem setReg_halted (c : CpuState) (r : Reg) (v : Byte) : (c.setReg r v).halted = c.halted := by
  cases r <;> rfl
@[simp] theorem setReg_running (c : CpuState) (r : Reg) (v : Byte) : (c.setReg r v).running = c.running := by
  cases r <;> rfl

/-! ### Arithmetic -/

@[simp] theorem arith_reg_a (c : CpuState) (x : Int) : (c.arith x).reg .a = lowByte x := rfl

theorem arith_reg_ne (c : CpuState) {q : Reg} (h : q ≠ .a) (x : Int) : (c.arith x).reg q = c.reg q := by
  cases q <;> first | rfl | exact absurd rfl h

@[simp] theorem arith_pc (c : CpuState) (x : Int) : (c.arith x).pc = c.pc := rfl
@[simp] theorem arith_sp (c : CpuState) (x : Int) : (c.arith x).sp = c.sp := rfl
@[simp] theorem arith_flags (c : CpuState) (x : Int) : (c.arith x).flags = updateFlags x c.flags := rfl
@[simp] theorem arith_mem (c : CpuState) (x : Int) : (c.arith x).mem = c.mem := rfl
@[simp] theorem arith_load (c : CpuState) (x : Int) (addr : Addr) : (c.arith x).load addr = c.load addr := rfl
@[simp] theorem arith_halted (c : CpuState) (x : Int) : (c.arith x).halted = c.halted := rfl
@[simp] theorem arith_running (c : CpuState) (x : Int) : (c.arith x).running = c.running := rfl

@[simp] theorem updateFlags_z (x : Int) (f : Flags) : (updateFlags x f).z = zeroFlag x := rfl
@[simp] theorem updateFlags_s (x : Int) (f : Flags) : (updateFlags x f).s = signFlag x := rfl
@[simp] theorem updateFlags_cy (x : Int) (f : Flags) : (updateFlags x f).cy = carryFlag x := rfl
@[simp] theorem updateFlags_p (x : Int) (f : Flags) : (updateFlags x f).p = parityFlag x := rfl
@[simp] theorem updateFlags_ac (x : Int) (f : Flags) : (updateFlags x f).ac = f.ac := rfl

/-! ### Stores -/

@[simp] theorem store_reg (c : CpuState) (addr : Addr) (v : Byte) (r : Reg) : (c.store addr v).reg r = c.reg r := by
  cases r <;> rfl
@[simp] theorem store_pc (c : CpuState) (addr : Addr) (v : Byte) : (c.store addr v).pc = c.pc := rfl
@[simp] theorem store_sp (c : CpuState) (addr : Addr) (v : Byte) : (c.store addr v).sp = c.sp := rfl
@[simp] theorem store_flags (c : CpuState) (addr : Addr) (v : Byte) : (c.store addr v).flags = c.flags := rfl
@[simp] theorem store_mem (c : CpuState) (addr : Addr) (v : Byte) : (c.store addr v).mem = c.mem.write addr v := rfl
@[simp] theorem store_halted (c : CpuState) (addr : Addr) (v : Byte) : (c.store addr v).halted = c.halted := rfl
@[simp] theorem store_running (c : CpuState) (addr : Addr) (v : Byte) : (c.store addr v).running = c.running := rfl

/-! ### Steps: executed and not executed -/

@[simp] theorem notExecuted_cpu (s : State) (m : Text) : (s.notExecuted m).cpu = s.cpu := rfl
@[simp] theorem notExecuted_loop (s : State) (m : Text) : (s.notExecuted m).loop = s.loop := rfl
@[simp] theorem notExecuted_outcome (s : State) (m : Text) : (s.notExecuted m).outcome = some ⟨false, m⟩ := rfl
@[simp] theorem notExecuted_reply (s : State) (m : Text) : (s.notExecuted m).reply = s.reply := rfl
@[simp] theorem notExecuted_calls (s : State) (m : Text) : (s.notExecuted m).calls = s.calls := rfl

@[simp] theorem executed_cpu (s : State) (m : Text) (f : CpuState → CpuState) : (s.executed m f).cpu = f s.cpu := rfl
@[simp] theorem executed_loop (s : State) (m : Text) (f : CpuState → CpuState) : (s.executed m f).loop = s.loop := rfl
@[simp] theorem executed_outcome (s : State) (m : Text) (f : CpuState → CpuState) :
    (s.executed m f).outcome = some ⟨true, m⟩ := rfl
@[simp] theorem executed_reply (s : State) (m : Text) (f : CpuState → CpuState) :
    (s.executed m f).reply = s.reply := rfl
@[simp] theorem executed_calls (s : State) (m : Text) (f : CpuState → CpuState) :
    (s.executed m f).calls = s.calls := rfl

/-! ### The run loop and the host's replies -/

@[simp] theorem enterRun_loop (s : State) (prog : List Record) (idx : Nat) :
    (s.enterRun prog idx).loop = some ⟨prog, idx⟩ := rfl
@[simp] theorem enterRun_cpu (s : State) (prog : List Record) (idx : Nat) :
    (s.enterRun prog idx).cpu = s.cpu.setRunning true := rfl
@[simp] theorem enterRun_outcome (s : State) (prog : List Record) (idx : Nat) :
    (s.enterRun prog idx).outcome = s.outcome := rfl
@[simp] theorem enterRun_reply (s : State) (prog : List Record) (idx : Nat) :
    (s.enterRun prog idx).reply = s.reply := rfl
@[simp] theorem enterRun_calls (s : State) (prog : List Record) (idx : Nat) :
    (s.enterRun prog idx).calls = s.calls := rfl

@[simp] theorem leaveRun_loop (s : State) (ret : Option Nat) : (s.leaveRun ret).loop = none := rfl
@[simp] theorem leaveRun_cpu (s : State) (ret : Option Nat) :
    (s.leaveRun ret).cpu = s.cpu.setRunning false := rfl
@[simp] theorem leaveRun_outcome (s : State) (ret : Option Nat) : (s.leaveRun ret).outcome = s.outcome := rfl
@[simp] theorem leaveRun_reply (s : State) (ret : Option Nat) :
    (s.leaveRun ret).reply = some (.finalIndex ret) := rfl
@[simp] theorem leaveRun_calls (s : State) (ret : Option Nat) : (s.leaveRun ret).calls = s.calls := rfl

@[simp] theorem answer_cpu (s : State) (r : Reply) : (s.answer r).cpu = s.cpu := rfl
@[simp] theorem answer_loop (s : State) (r : Reply) : (s.answer r).loop = s.loop := rfl
@[simp] theorem answer_outcome (s : State) (r : Reply) : (s.answer r).outcome = s.outcome := rfl
@[simp] theorem answer_reply (s : State) (r : Reply) : (s.answer r).reply = some r := rfl
@[simp] theorem answer_calls (s : State) (r : Reply) : (s.answer r).calls = s.calls := rfl

@[simp] theorem callReset_cpu (s : State) : (callReset s).cpu = CpuState.reset := rfl
@[simp] theorem callReset_loop (s : State) : (callReset s).loop = s.loop := rfl
@[simp] theorem callReset_outcome (s : State) : (callReset s).outcome = s.outcome := rfl
@[simp] theorem callReset_reply (s : State) : (callReset s).reply = some .nothing := rfl
@[simp] theorem callReset_calls (s : State) : (callReset s).calls = s.calls := rfl

end Sys2Proof.Machine
end

