-- ==== Sys2Proof/Laws/Exec.lean ====
section
/-! SUPPORT. What a step of a record can do, said once: the halted case, and the executed case. -/

namespace Sys2Proof.Machine

/-- On a ready engine the shared operation executes (R101 step d). -/
theorem execute_ready {s : State} (h : s.cpu.halted = false) (m : Text) (f : CpuState → CpuState) :
    s.execute m f = .next (s.executed m f) := by simp [State.execute, h]

/-- On a halted engine it does nothing but report (R103). -/
theorem execute_halted {s : State} (h : s.cpu.halted = true) (m : Text) (f : CpuState → CpuState) :
    s.execute m f = .next (s.notExecuted haltedMessage) := by simp [State.execute, h]

theorem executeUnknown_ready {s : State} (h : s.cpu.halted = false) (m : Text) :
    s.executeUnknown m = .next (s.notExecuted (unknownMessage m)) := by simp [State.executeUnknown, h]

theorem executeUnknown_halted {s : State} (h : s.cpu.halted = true) (m : Text) :
    s.executeUnknown m = .next (s.notExecuted haltedMessage) := by simp [State.executeUnknown, h]

/-- All an answer of the shared operation can be. -/
theorem execute_next {s t : State} {m : Text} {f : CpuState → CpuState} (h : s.execute m f = .next t) :
    (s.cpu.halted = true ∧ t = s.notExecuted haltedMessage) ∨ (s.cpu.halted = false ∧ t = s.executed m f) := by
  by_cases hh : s.cpu.halted = true
  · rw [execute_halted hh] at h
    injection h with h
    exact .inl ⟨hh, h.symm⟩
  · have hh : s.cpu.halted = false := by simpa using hh
    rw [execute_ready hh] at h
    injection h with h
    exact .inr ⟨hh, h.symm⟩

/-- The effect of each instruction on the CPU (R102). -/
def effectOf : Instr → CpuState → CpuState
  | .mvi r v, c => (c.setReg r v).advance 2
  | .mov rd rs, c => (c.setReg rd (c.reg rs)).advance 1
  | .lda addr, c => (c.setReg .a (c.load addr)).advance 3
  | .sta addr, c => (c.store addr (c.reg .a)).advance 3
  | .add r, c => (c.arith (operandInt (c.reg .a) + operandInt (c.reg r))).advance 1
  | .adi v, c => (c.arith (operandInt (c.reg .a) + operandInt v)).advance 2
  | .sub r, c => (c.arith (operandInt (c.reg .a) - operandInt (c.reg r))).advance 1
  | .sui v, c => (c.arith (operandInt (c.reg .a) - operandInt v)).advance 2
  | .jmp addr, c => c.jump addr
  | .cma, c => (c.setReg .a (0xFF - c.reg .a)).advance 1
  | .hlt, c => c.halt

/-- The message of each executed instruction (R106, R200). -/
def messageOf (i : Instr) (c : CpuState) : Text := if i = .hlt then hltMessage else Config.okMessage i c

/-- Every arm of the dispatch is the shared operation on its instruction's message and effect. -/
theorem exec_eq (i : Instr) (s : State) : exec i s = s.execute (messageOf i s.cpu) (effectOf i) := by
  cases i <;> rfl

theorem exec_ready (i : Instr) {s : State} (h : s.cpu.halted = false) :
    exec i s = .next (s.executed (messageOf i s.cpu) (effectOf i)) := by
  rw [exec_eq, execute_ready h]

theorem exec_halted (i : Instr) {s : State} (h : s.cpu.halted = true) :
    exec i s = .next (s.notExecuted haltedMessage) := by
  rw [exec_eq, execute_halted h]

/-- All an answer of the dispatch can be. -/
theorem exec_next {i : Instr} {s t : State} (h : exec i s = .next t) :
    (s.cpu.halted = true ∧ t = s.notExecuted haltedMessage) ∨
      (s.cpu.halted = false ∧ t = s.executed (messageOf i s.cpu) (effectOf i)) := by
  rw [exec_eq] at h
  exact execute_next h

/-- All an answer of a decoded record can be. -/
theorem execDecoded_next {d : Decoded} {s t : State} (h : execDecoded d s = .next t) :
    (s.cpu.halted = true ∧ t = s.notExecuted haltedMessage) ∨
      (s.cpu.halted = false ∧
        ((∃ i, d = .known i ∧ t = s.executed (messageOf i s.cpu) (effectOf i)) ∨
          ∃ m, d = .unknown m ∧ t = s.notExecuted (unknownMessage m))) := by
  cases d with
  | known i => exact (exec_next h).imp id fun ⟨hh, ht⟩ => ⟨hh, .inl ⟨i, rfl, ht⟩⟩
  | unknown m =>
    simp only [execDecoded, State.executeUnknown] at h
    split at h
    · exact .inl ⟨‹_›, by injection h with h; exact h.symm⟩
    · rename_i hh
      exact .inr ⟨by simpa using hh, .inr ⟨m, rfl, by injection h with h; exact h.symm⟩⟩

/-- A decoded record always completes: no step of the machine faults or is refused (R105, R210). -/
theorem execDecoded_completes (d : Decoded) (s : State) : ∃ t, execDecoded d s = .next t := by
  cases d with
  | known i => simp only [execDecoded, exec_eq, State.execute]; split <;> exact ⟨_, rfl⟩
  | unknown m => simp only [execDecoded, State.executeUnknown]; split <;> exact ⟨_, rfl⟩

@[simp] theorem onNext_next {α β : Type} (a : α) (k : α → β) :
    onNext (.next a : Host.Outcome α Fault Refusal) k = .next (k a) := rfl

@[simp] theorem onNext_refused {α β : Type} (r : Refusal) (k : α → β) :
    onNext (.refused r : Host.Outcome α Fault Refusal) k = .refused r := rfl

theorem onNext_eq_next {α β : Type} {o : Host.Outcome α Fault Refusal} {k : α → β} {b : β}
    (h : onNext o k = .next b) : ∃ a, o = .next a ∧ k a = b := by
  cases o with
  | next a => exact ⟨a, rfl, by injection h⟩
  | fault f => exact nomatch f
  | refused r => exact nomatch h

/-- A record that does not decode is refused, whatever the state (R101 step a). -/
theorem executeInstruction_undecoded {record : Record} {e : RecordRefusal} (h : decodeRecord record = .error e)
    (s : State) : executeInstruction record s = .refused (refusalOf e) := by simp [executeInstruction, h]

/-- The run loop refuses it when it reaches it, whatever the state. -/
theorem runStep_undecoded {prog : List Record} {idx : Nat} {record : Record} {e : RecordRefusal}
    (hp : prog[idx]? = some record) (h : decodeRecord record = .error e) (s : State) :
    runStep prog idx s = .refused (refusalOf e) := by simp [runStep, hp, h]

/-- All an iteration of the run loop can answer (R117). -/
theorem runStep_next {prog : List Record} {idx : Nat} {s : State} {x : State × LoopResult}
    (h : runStep prog idx s = .next x) :
    (prog[idx]? = none ∧ x = ({ s with cpu := s.cpu.halt }, .stop .endOfProgram (some idx))) ∨
      ∃ record d t, prog[idx]? = some record ∧ decodeRecord record = .ok d ∧ execDecoded d s = .next t ∧
        x = afterStep prog idx d t := by
  simp only [runStep] at h
  split at h
  · rename_i hp
    injection h with h
    exact .inl ⟨hp, h.symm⟩
  · rename_i record hp
    split at h
    · exact nomatch h
    · rename_i d hd
      obtain ⟨t, ht, hx⟩ := onNext_eq_next h
      exact .inr ⟨record, d, t, hp, hd, ht, hx.symm⟩

end Sys2Proof.Machine
end

