-- ==== Sys2Proof/Laws/PerInstr.lean ====
section
/-! SUPPORT. The per-instruction family `Size`: an instruction's bytes are as many as its size (R67, R86), and its
operands have its mnemonic's shape (R64). -/

namespace Sys2Proof.Laws

/-- The byte count and the operand shape of an instruction as syntax. -/
def Size.Statement (i : Instr) : Prop :=
  (encode i).length = i.size ∧ operandsFit i.mnemonic.operandKinds i.operands = true

theorem Size.mvi (r : Reg) (v : Byte) : Size.Statement (.mvi r v) := by
  have := v.isLt
  refine ⟨rfl, ?_⟩
  simp [Instr.mnemonic, Mnemonic.operandKinds, Instr.operands, operandsFit, OperandKind.admits]
  omega

theorem Size.mov (rd rs : Reg) : Size.Statement (.mov rd rs) := ⟨rfl, rfl⟩

theorem Size.lda (addr : Addr) : Size.Statement (.lda addr) := by
  have := addr.isLt
  refine ⟨rfl, ?_⟩
  simp [Instr.mnemonic, Mnemonic.operandKinds, Instr.operands, operandsFit, OperandKind.admits]
  omega

theorem Size.sta (addr : Addr) : Size.Statement (.sta addr) := by
  have := addr.isLt
  refine ⟨rfl, ?_⟩
  simp [Instr.mnemonic, Mnemonic.operandKinds, Instr.operands, operandsFit, OperandKind.admits]
  omega

theorem Size.add (r : Reg) : Size.Statement (.add r) := ⟨rfl, rfl⟩

theorem Size.adi (v : Byte) : Size.Statement (.adi v) := by
  have := v.isLt
  refine ⟨rfl, ?_⟩
  simp [Instr.mnemonic, Mnemonic.operandKinds, Instr.operands, operandsFit, OperandKind.admits]
  omega

theorem Size.sub (r : Reg) : Size.Statement (.sub r) := ⟨rfl, rfl⟩

theorem Size.sui (v : Byte) : Size.Statement (.sui v) := by
  have := v.isLt
  refine ⟨rfl, ?_⟩
  simp [Instr.mnemonic, Mnemonic.operandKinds, Instr.operands, operandsFit, OperandKind.admits]
  omega

theorem Size.jmp (addr : Addr) : Size.Statement (.jmp addr) := by
  have := addr.isLt
  refine ⟨rfl, ?_⟩
  simp [Instr.mnemonic, Mnemonic.operandKinds, Instr.operands, operandsFit, OperandKind.admits]
  omega

theorem Size.cma : Size.Statement .cma := ⟨rfl, rfl⟩

theorem Size.hlt : Size.Statement .hlt := ⟨rfl, rfl⟩

end Sys2Proof.Laws
end

