-- ==== Sys2Proof/Laws/Step.lean ====
section
/-! SUPPORT. What one step of the whole machine can do, said once. -/

namespace Sys2Proof.Machine

theorem step_inFlight {s : State} {run : RunLoop} (h : s.loop = some run) : step s = stepLoop run s := by
  simp [step, stepMachine, h]

theorem step_idle {s : State} (h : s.loop = none) (hc : s.calls = []) : step s = .next s := by
  simp [step, stepMachine, stepHost, h, hc]

theorem step_call {s : State} {call : HostCall} {rest : List HostCall} (h : s.loop = none)
    (hc : s.calls = call :: rest) : step s = performCall call { s with calls := rest } := by
  simp [step, stepMachine, stepHost, h, hc]

/-- The host's bounded run of the machine, one step unfolded. -/
theorem coreRun_next {s t : State} (h : step s = .next t) (n : Nat) :
    Sys2Proof.core.run (n + 1) s = Sys2Proof.core.run n t := by
  have h' : Sys2Proof.core.step s = .next t := h
  simp [Host.Core.run, h']

theorem coreRun_refused {s : State} {r : Refusal} (h : step s = .refused r) (n : Nat) :
    Sys2Proof.core.run (n + 1) s = .refused r := by
  have h' : Sys2Proof.core.step s = .refused r := h
  simp [Host.Core.run, h']

theorem stepInstr_inFlight {s : State} {run : RunLoop} {record : Record} {i : Instr} (h : s.loop = some run)
    (hp : run.prog[run.idx]? = some record) (hd : decodeRecord record = .ok (.known i)) :
    s.stepInstr? = some i := by
  simp [State.stepInstr?, State.stepRecord?, h, hp, hd]

theorem stepInstr_call {s : State} {record : Record} {i : Instr} {rest : List HostCall} (h : s.loop = none)
    (hc : s.calls = .executeInstruction record :: rest) (hd : decodeRecord record = .ok (.known i)) :
    s.stepInstr? = some i := by
  simp [State.stepInstr?, State.stepRecord?, h, hc, hd]

theorem resetsNext_inFlight {s : State} {run : RunLoop} (h : s.loop = some run) : s.resetsNext = false := by
  simp [State.resetsNext, h]

theorem effectOf_running (i : Instr) (c : CpuState) : (effectOf i c).running = c.running := by
  cases i <;> simp [effectOf]

/-- Every instruction keeps the memory's canonical form. -/
theorem effectOf_wf (i : Instr) {c : CpuState} (h : c.mem.wf) : (effectOf i c).mem.wf := by
  cases i <;> simp only [effectOf, advance_mem, setReg_mem, arith_mem, jump_mem, halt_mem, store_mem] <;>
    first | exact h | exact wf_write _ _ h

/-- The host's answer to `executeInstruction` touches only the reply. -/
theorem answerOutcome_keeps (t : State) :
    t.answerOutcome.cpu = t.cpu ∧ t.answerOutcome.loop = t.loop ∧ t.answerOutcome.calls = t.calls ∧
      t.answerOutcome.outcome = t.outcome := by
  unfold State.answerOutcome
  split <;> simp

/-- All a step of a run in flight can do: pass the end, or step a record that decodes and then go on or return. -/
theorem step_inFlight_next {s t : State} {run : RunLoop} (hl : s.loop = some run) (h : step s = .next t) :
    (run.prog[run.idx]? = none ∧
        t = State.leaveRun { s with cpu := s.cpu.halt } (some run.idx)) ∨
      ∃ record d u, run.prog[run.idx]? = some record ∧ decodeRecord record = .ok d ∧ execDecoded d s = .next u ∧
        t = applyLoopResult run.prog (afterStep run.prog run.idx d u) := by
  rw [step_inFlight hl] at h
  obtain ⟨x, hx, rfl⟩ := onNext_eq_next h
  obtain ⟨hp, rfl⟩ | ⟨record, d, u, hp, hd, hu, rfl⟩ := runStep_next hx
  · exact .inl ⟨hp, rfl⟩
  · exact .inr ⟨record, d, u, hp, hd, hu, rfl⟩

/-- Going on or returning changes `running` at most. -/
theorem applyLoopResult_cpu (prog : List Record) (x : State × LoopResult) :
    ∃ b, (applyLoopResult prog x).cpu = x.1.cpu.setRunning b := by
  obtain ⟨u, r⟩ := x
  cases r with
  | continueAt j => exact ⟨u.cpu.running, (setRunning_self _).symm⟩
  | stop kind ret => exact ⟨false, rfl⟩

/-- The CPU after a step of a decoded record: unchanged, or the effect of the known instruction on a ready engine. -/
theorem execDecoded_cpu {d : Decoded} {s t : State} (h : execDecoded d s = .next t) :
    t.cpu = s.cpu ∨ (s.cpu.halted = false ∧ ∃ i, d = .known i ∧ t.cpu = effectOf i s.cpu) := by
  obtain ⟨-, rfl⟩ | ⟨hh, ⟨i, rfl, rfl⟩ | ⟨m, -, rfl⟩⟩ := execDecoded_next h
  · exact .inl rfl
  · exact .inr ⟨hh, i, rfl, rfl⟩
  · exact .inl rfl

/-- A step of a decoded record halts the engine only if it was halted or the record is `HLT`. -/
theorem execDecoded_halted {d : Decoded} {s t : State} (h : execDecoded d s = .next t) :
    t.cpu.halted = (s.cpu.halted || d == .known .hlt) := by
  obtain ⟨a, rfl⟩ | ⟨a, ⟨i, rfl, rfl⟩ | ⟨m, rfl, rfl⟩⟩ := execDecoded_next h
  · simp [a]
  · cases i <;> simp [effectOf, a]
  · simp [a]

/-- A step of a decoded record touches neither the run in flight nor the host's calls and replies. -/
theorem execDecoded_keeps {d : Decoded} {s t : State} (h : execDecoded d s = .next t) :
    t.loop = s.loop ∧ t.reply = s.reply ∧ t.calls = s.calls := by
  obtain ⟨-, rfl⟩ | ⟨-, ⟨i, rfl, rfl⟩ | ⟨m, rfl, rfl⟩⟩ := execDecoded_next h <;> exact ⟨rfl, rfl, rfl⟩

/-- Where the loop goes: to the looked-up target after `JMP`, by one after anything else (R114). -/
theorem nextIndex_cases (prog : List Record) (idx : Nat) (d : Decoded) :
    (∃ addr, d = .known (.jmp addr) ∧
        nextIndex prog idx d =
          match lookupAddress addr prog with
          | some j => .continueAt j
          | none => .stop .notFound none) ∨
      ((∀ addr, d ≠ .known (.jmp addr)) ∧ nextIndex prog idx d = .continueAt (idx + 1)) := by
  cases d with
  | known i => cases i <;> first | exact .inr ⟨by simp, rfl⟩ | exact .inl ⟨_, rfl, rfl⟩
  | unknown m => exact .inr ⟨by simp, rfl⟩

theorem applyLoopResult_loop (prog : List Record) (x : State × LoopResult) :
    (applyLoopResult prog x).loop =
      match x.2 with
      | .continueAt j => some ⟨prog, j⟩
      | .stop _ _ => none := by
  obtain ⟨u, r⟩ := x
  cases r <;> rfl

/-- All a step of the machine can do to the CPU, `running` aside: reset it, leave it, execute one instruction on a
ready engine, or auto-halt past the end of a program. -/
theorem step_cpu {s t : State} (h : step s = .next t) :
    (s.resetsNext = true ∧ t.cpu = CpuState.reset) ∨
      (s.resetsNext = false ∧ ∃ c b, t.cpu = c.setRunning b ∧
        (c = s.cpu ∨
          (s.cpu.halted = false ∧ ∃ i, s.stepInstr? = some i ∧ c = effectOf i s.cpu) ∨
          (c = s.cpu.halt ∧ ∃ run, s.loop = some run ∧ run.prog.length ≤ run.idx))) := by
  rcases hl : s.loop with _ | run
  · rcases hc : s.calls with _ | ⟨call, rest⟩
    · rw [step_idle hl hc] at h
      injection h with h
      subst h
      exact .inr ⟨by simp [State.resetsNext, hl, hc], s.cpu, s.cpu.running, (setRunning_self _).symm, .inl rfl⟩
    · rw [step_call hl hc] at h
      cases call with
      | reset =>
        injection h with h
        subst h
        exact .inl ⟨by simp [State.resetsNext, hl, hc], rfl⟩
      | assemble source =>
        refine .inr ⟨by simp [State.resetsNext, hl, hc], s.cpu, s.cpu.running, ?_, .inl rfl⟩
        simp only [performCall, callAssemble] at h
        split at h
        · exact nomatch h
        · injection h with h
          subst h
          rfl
      | executeInstruction record =>
        obtain ⟨u, hu, rfl⟩ := onNext_eq_next h
        simp only [executeInstruction] at hu
        split at hu
        · exact nomatch hu
        · rename_i d hd
          refine .inr ⟨by simp [State.resetsNext, hl, hc], u.cpu, u.cpu.running, ?_, ?_⟩
          · rw [(answerOutcome_keeps u).1]
            rfl
          · obtain hk | ⟨hh, i, rfl, hk⟩ := execDecoded_cpu hu
            · exact .inl hk
            · exact .inr (.inl ⟨hh, i, stepInstr_call hl hc hd, hk⟩)
      | run prog startIndex =>
        refine .inr ⟨by simp [State.resetsNext, hl, hc], s.cpu, true, ?_, .inl rfl⟩
        simp only [performCall, callRun] at h
        split at h
        · exact nomatch h
        · split at h
          · exact nomatch h
          · split at h
            · exact nomatch h
            · injection h with h
              subst h
              rfl
      | getMemory start length =>
        refine .inr ⟨by simp [State.resetsNext, hl, hc], s.cpu, s.cpu.running, ?_, .inl rfl⟩
        simp only [performCall, callGetMemory] at h
        split at h
        · injection h with h
          subst h
          rfl
        · exact nomatch h
      | snapshot =>
        injection h with h
        subst h
        exact .inr ⟨by simp [State.resetsNext, hl, hc], s.cpu, s.cpu.running, rfl, .inl rfl⟩
  · refine .inr ⟨resetsNext_inFlight hl, ?_⟩
    obtain ⟨hp, rfl⟩ | ⟨record, d, u, hp, hd, hu, rfl⟩ := step_inFlight_next hl h
    · exact ⟨s.cpu.halt, false, rfl, .inr (.inr ⟨rfl, run, rfl, List.getElem?_eq_none_iff.1 hp⟩)⟩
    · obtain ⟨b, hb⟩ := applyLoopResult_cpu run.prog (afterStep run.prog run.idx d u)
      refine ⟨u.cpu, b, hb, ?_⟩
      obtain hk | ⟨hh, i, rfl, hk⟩ := execDecoded_cpu hu
      · exact .inl hk
      · exact .inr (.inl ⟨hh, i, stepInstr_inFlight hl hp hd, hk⟩)

end Sys2Proof.Machine
end

