-- ==== Sys2Proof/Tests/Slice0.lean ====
section
/-! SUPPORT. The model's own tests, each about one step or one piece of text, and the witnesses of the statements'
hypotheses. Expected values come from spec/95_test_vectors.md, named by its ids. -/

namespace Sys2Proof.Machine

/-! ### Small states -/

/-- A ready engine with A, B and PC set, the rest as at reset. -/
def testCpu (a b : Byte) (pc : Addr) : CpuState := { CpuState.reset with a := a, b := b, pc := pc }

def testState (c : CpuState) : State := { State.reset with cpu := c }

/-- Between runs, with host calls to make. -/
def testCalls (c : CpuState) (calls : List HostCall) : State := { State.reset with cpu := c, calls := calls }

/-- A run in flight. -/
def testRun (c : CpuState) (prog : List Record) (idx : Nat) : State :=
  { State.reset with cpu := c.setRunning true, loop := some { prog := prog, idx := idx } }

/-- The CPU after an answer; a mark no test expects where there is none. -/
def cpuAfter (o : Host.Outcome State Fault Refusal) : CpuState :=
  match o with
  | .next t => t.cpu
  | .fault f => nomatch f
  | .refused _ => { CpuState.reset with pc := 0xDEAD, a := 0xDE }

def refusalOf? (o : Host.Outcome State Fault Refusal) : Option Refusal :=
  match o with
  | .next _ => none
  | .fault f => nomatch f
  | .refused r => some r

/-- A host-built record. -/
def hostRecord (mnemonic : Text) (operands : List Operand) (addr : Addr) (error : Bool) : Record where
  mnemonic := mnemonic
  operands := operands
  address := some addr
  raw := []
  lineNumber := 1
  error := error
  errorMessage := none

def nopRecord (addr : Addr) : Record := hostRecord ['N', 'O', 'P'] [] addr false

/-- What a test reads of an assembled record. -/
structure RecordView where
  mnemonic : Text
  operands : List Operand
  address : Option Addr
  line : Nat
  error : Bool
  deriving DecidableEq, Repr

def recordView (r : Record) : RecordView := ⟨r.mnemonic, r.operands, r.address, r.lineNumber, r.error⟩

/-- The records of a source; none where it is refused. -/
def assembleView (source : String) : Option (List RecordView) :=
  match assemble source.toList with
  | .ok rs => some (rs.map recordView)
  | .error _ => none

/-- The refusal of a source, if it has one. -/
def assembleRefusal (source : String) : Option Refusal :=
  match assemble source.toList with
  | .ok _ => none
  | .error r => some r

/-- The records' error bits and addresses, when the source is not refused. -/
def assembleErrors (source : String) : Option (List (Bool × Option Addr)) :=
  match assemble source.toList with
  | .ok rs => some (rs.map fun r => (r.error, r.address))
  | .error _ => none

/-! ### WellFormed: an ill-formed term for each check -/

/-- CT-10: a value outside `u8`. -/
theorem test_illformed_imm8 : (hostRecord Mnemonic.mvi.text [.reg .a, .num 0x100] 0 false).wellFormed = false := by
  decide
theorem test_illformed_negative : (hostRecord Mnemonic.adi.text [.num (-1)] 0 false).wellFormed = false := by decide
theorem test_illformed_addr16 : (hostRecord Mnemonic.jmp.text [.num 0x10000] 0 false).wellFormed = false := by decide
theorem test_illformed_kind : (hostRecord Mnemonic.mov.text [.reg .a, .num 5] 0 false).wellFormed = false := by decide
theorem test_illformed_token : (hostRecord Mnemonic.add.text [.token ['M']] 0 false).wellFormed = false := by decide
/-- CT-9: a missing operand. -/
theorem test_illformed_count : (hostRecord Mnemonic.mvi.text [.reg .a] 0 false).wellFormed = false := by decide
theorem test_illformed_extra : (hostRecord Mnemonic.cma.text [.reg .a] 0 false).wellFormed = false := by decide
theorem test_illformed_error : (hostRecord Mnemonic.hlt.text [] 0 true).wellFormed = false := by decide
theorem test_wellformed_edges :
    (hostRecord Mnemonic.mvi.text [.reg .a, .num 0xFF] 0 false).wellFormed = true ∧
    (hostRecord Mnemonic.jmp.text [.num 0xFFFF] 0 false).wellFormed = true ∧ (nopRecord 0).wellFormed = true := by
  decide
theorem test_program_with_error_record :
    noErrorRecord [Instr.cma.toRecord 0, hostRecord Mnemonic.hlt.text [] 1 true] = false := by decide
theorem test_laid_out_wrong_address : laidOutFrom 0 [(Instr.mvi .a 1).toRecord 0, Instr.hlt.toRecord 1] = false := by
  decide
theorem test_laid_out_past_the_space : laidOutFrom 0xFFFE [(Instr.jmp 0).toRecord 0xFFFE] = false := by decide
theorem test_laid_out_unknown : laidOutFrom 0 [nopRecord 0] = false := by decide
theorem test_memory_illformed :
    ¬ Memory.wf [(2, 1), (1, 1)] ∧ ¬ Memory.wf [(1, 0)] ∧ ¬ Memory.wf [(0x10000, 1)] ∧ Memory.wf [(1, 1), (0xFFFF, 2)] := by
  decide

/-! ### Decoding: words written out from R86, records from R82 -/

theorem test_bytes_mvi : decodeBytes [0b00111110, 0x05] = .ok (.mvi .a 0x05, []) := by decide
theorem test_bytes_mov : decodeBytes [0b01001111] = .ok (.mov .c .a, []) := by decide
theorem test_bytes_lda : decodeBytes [0b00111010, 0x50, 0x20] = .ok (.lda 0x2050, []) := by decide
theorem test_bytes_sta : decodeBytes [0b00110010, 0x00, 0x20, 0x76] = .ok (.sta 0x2000, [0x76]) := by decide
theorem test_bytes_add : decodeBytes [0b10000000] = .ok (.add .b, []) := by decide
theorem test_bytes_adi : decodeBytes [0b11000110, 0x01] = .ok (.adi 0x01, []) := by decide
theorem test_bytes_sub : decodeBytes [0b10010111] = .ok (.sub .a, []) := by decide
theorem test_bytes_sui : decodeBytes [0b11010110, 0x05] = .ok (.sui 0x05, []) := by decide
theorem test_bytes_jmp : decodeBytes [0b11000011, 0x05, 0x00] = .ok (.jmp 0x0005, []) := by decide
theorem test_bytes_cma : decodeBytes [0b00101111] = .ok (.cma, []) := by decide
theorem test_bytes_hlt : decodeBytes [0b01110110] = .ok (.hlt, []) := by decide
theorem test_bytes_refused :
    decodeBytes [0x00] = .error (.unknownOpcode 0x00) ∧ decodeBytes [0b10000110] = .error (.memoryOperand 0x86) ∧
    decodeBytes [0b00111010, 0x50] = .error .truncated := by decide
/-- No first byte belongs to two rows of the table but 0x76, which the table gives to HLT and takes from MOV. -/
theorem test_rows_disjoint : ∀ op : Byte, op ≠ 0x76 →
    (byteRows.filter fun row => op &&& row.mask == row.pattern).length ≤ 1 := by decide
theorem test_record_known :
    decodeRecord (hostRecord ['S', 'U', 'I'] [.num 5] 2 false) = .ok (.known (.sui 0x05)) := by decide
/-- CT-5. -/
theorem test_record_unknown : decodeRecord (nopRecord 0) = .ok (.unknown ['N', 'O', 'P']) := by decide
/-- CT-9, CT-8. -/
theorem test_record_refused :
    decodeRecord (hostRecord ['M', 'V', 'I'] [.reg .a] 0 false) = .error .malformedRecord ∧
    decodeRecord (hostRecord ['F', 'O', 'O'] [] 0 true) = .error .errorRecord := by decide

/-! ### The instructions (vectors DT, AR, BR, LG, CT) -/

/-- DT-4: PC wraps. -/
theorem test_mvi : (cpuAfter (exec (.mvi .a 0x01) (testState (testCpu 0 0 0xFFFF)))) = testCpu 0x01 0 0x0001 := by decide
/-- DT-8: source and destination apart. -/
theorem test_mov :
    (cpuAfter (exec (.mov .h .l) (testState { CpuState.reset with h := 1, l := 2 }))).reg .h = 2 ∧
    (cpuAfter (exec (.mov .h .l) (testState { CpuState.reset with h := 1, l := 2 }))).reg .l = 2 := by decide
/-- DT-10, DT-11: the last cell, and a cell never written. -/
theorem test_lda :
    (cpuAfter (exec (.lda 0xFFFF) (testState { CpuState.reset with mem := [(0xFFFF, 0x42)] }))) =
      { CpuState.reset with mem := [(0xFFFF, 0x42)], a := 0x42, pc := 3 } ∧
    (cpuAfter (exec (.lda 0x0000) (testState (testCpu 0x77 0 0)))) = testCpu 0 0 3 := by decide
/-- DT-12: the last cell; DT-13: PC wraps. -/
theorem test_sta :
    (cpuAfter (exec (.sta 0xFFFF) (testState (testCpu 0x99 0 0)))).mem = [(0xFFFF, 0x99)] ∧
    (cpuAfter (exec (.sta 0x2100) (testState (testCpu 0x0F 0 0xFFFE)))).pc = 0x0001 := by decide
/-- A store of zero leaves nothing listed. -/
theorem test_sta_zero :
    (cpuAfter (exec (.sta 0x2100) (testState { CpuState.reset with mem := [(0x2100, 7)] }))).mem = [] := by decide
/-- AR-1 (L1-1): parity is even. -/
theorem test_add :
    cpuAfter (exec (.add .b) (testState (testCpu 0x05 0x0A 0x0004))) =
      { testCpu 0x0F 0x0A 0x0005 with flags := { z := false, s := false, cy := false, p := true, ac := false } } := by
  decide
/-- AR-8: the source is also the destination. -/
theorem test_add_a :
    cpuAfter (exec (.add .a) (testState (testCpu 0x80 0 0))) =
      { testCpu 0 0 1 with flags := { z := true, s := false, cy := true, p := true, ac := false } } := by decide
/-- AR-13; AC is kept (AR-28). -/
theorem test_adi :
    cpuAfter (exec (.adi 0xF1) (testState { testCpu 0x0F 0 0 with flags := ⟨false, false, false, false, true⟩ })) =
      { testCpu 0x00 0 2 with flags := { z := true, s := false, cy := true, p := true, ac := true } } := by decide
/-- AR-18: a borrow with a positive low byte. -/
theorem test_sub :
    cpuAfter (exec (.sub .b) (testState (testCpu 0x01 0xFF 0))) =
      { testCpu 0x02 0xFF 1 with flags := { z := false, s := false, cy := true, p := false, ac := false } } := by decide
/-- AR-17. -/
theorem test_sub_borrow :
    cpuAfter (exec (.sub .b) (testState (testCpu 0x00 0x01 0))) =
      { testCpu 0xFF 0x01 1 with flags := { z := false, s := true, cy := true, p := true, ac := false } } := by decide
/-- AR-23, AR-26. -/
theorem test_sui :
    cpuAfter (exec (.sui 0x05) (testState (testCpu 0x03 0 0))) =
      { testCpu 0xFE 0 2 with flags := { z := false, s := true, cy := true, p := false, ac := false } } ∧
    (cpuAfter (exec (.sui 0x42) (testState (testCpu 0x42 0 0)))).flags =
      { z := true, s := false, cy := false, p := true, ac := false } := by decide
/-- BR-2. -/
theorem test_jmp : cpuAfter (exec (.jmp 0xFFFF) (testState (testCpu 1 2 0))) = testCpu 1 2 0xFFFF := by decide
/-- LG-2, LG-6: no flag is set and PC wraps. -/
theorem test_cma : cpuAfter (exec .cma (testState (testCpu 0xFF 0 0xFFFF))) = testCpu 0x00 0 0x0000 := by decide
/-- CT-1. -/
theorem test_hlt :
    exec .hlt (testState (testCpu 0 0 8)) =
      .next { testState { testCpu 0 0 8 with halted := true } with outcome := some ⟨true, "CPU halted".toList⟩ } := rfl
/-- CT-3: a halted engine does nothing. -/
theorem test_halted :
    exec (.sta 0x2000) (testState { testCpu 0x11 0 0 with halted := true }) =
      .next { testState { testCpu 0x11 0 0 with halted := true } with
        outcome := some ⟨false, "CPU is halted".toList⟩ } := rfl
/-- CT-5: an unknown mnemonic. -/
theorem test_unknown :
    executeInstruction (nopRecord 0) State.reset =
      .next { State.reset with outcome := some ⟨false, "Unknown instruction: NOP".toList⟩ } := rfl
/-- CT-6: the halted check comes first. -/
theorem test_unknown_halted :
    executeInstruction (nopRecord 0) (testState CpuState.reset.halt) =
      .next { testState CpuState.reset.halt with outcome := some ⟨false, "CPU is halted".toList⟩ } := rfl
/-- CT-9 on a halted engine: the refusal comes before the halted check (D31). -/
theorem test_malformed_halted :
    refusalOf? (executeInstruction (hostRecord ['M', 'V', 'I'] [.reg .a] 0 false) (testState CpuState.reset.halt)) =
      some .malformedRecord := by decide

/-! ### Memory accessor (vectors MM) -/

theorem test_getMemory_clipped : getMemory CpuState.reset 0xFFFE 4 = [("FFFE".toList, 0), ("FFFF".toList, 0)] := by decide
theorem test_getMemory_negative : getMemory CpuState.reset (-2) 3 = [("0000".toList, 0)] := by decide
theorem test_getMemory_digits : getMemory CpuState.reset 0x00AB 1 = [("00AB".toList, 0)] := by decide
theorem test_getMemory_empty : getMemory CpuState.reset 0x2000 (-5) = [] := by decide

/-! ### One step of the run loop and of the host (vectors BR, RN, CT) -/

/-- BR-3: a target inside a record stops the run with none, after PC was set. -/
theorem test_jump_not_found :
    (match step (testRun (testCpu 1 0 2) [(Instr.mvi .a 1).toRecord 0, (Instr.jmp 1).toRecord 2] 1) with
      | .next t => t.cpu.pc == 1 && t.reply == some (.finalIndex none) && t.loop.isNone && !t.cpu.halted
      | _ => false) = true := by decide
/-- BR-5: the least index. -/
theorem test_lookup_least : lookupAddress 5 [Instr.hlt.toRecord 5, Instr.hlt.toRecord 5] = some 0 := by decide
/-- RN-1: an empty program auto-halts. -/
theorem test_end_of_program :
    step (testRun CpuState.reset [] 0) =
      .next { State.reset with cpu := CpuState.reset.halt, reply := some (.finalIndex (some 0)) } := rfl
/-- RN-4: a run on a halted engine returns at once. -/
theorem test_run_halted :
    (match step (testRun CpuState.reset.halt [(Instr.mvi .a 1).toRecord 0, Instr.hlt.toRecord 2] 0) with
      | .next t => t.cpu == CpuState.reset.halt && t.reply == some (.finalIndex (some 0)) && t.loop.isNone
      | _ => false) = true := by decide
/-- RN-7. -/
theorem test_bad_index : refusalOf? (step (testCalls CpuState.reset [.run [] (.int (-1))])) = some .badIndex := by decide
/-- CT-7. -/
theorem test_reset_call :
    step (testCalls { testCpu 0x12 3 4 with halted := true, mem := [(1, 1)] } [.reset]) =
      .next { State.reset with reply := some .nothing } := rfl
/-- The first instruction after reset is the one `withFetchWord` places. -/
theorem test_fetch_word :
    cpuAfter (step (State.reset.withFetchWord 16 0x053E)) = (testCpu 5 0 2).setRunning true := by decide

/-! ### The assembler (vectors L1, AS) -/

/-- L1-7. -/
theorem test_round_trip :
    assembleView "START: MVI A,05H ; load\n \n; only a comment\nLOOP:\n  HLT" =
      some [⟨"MVI".toList, [.reg .a, .num 5], some 0, 1, false⟩, ⟨"HLT".toList, [], some 2, 5, false⟩] := by decide
/-- L1-5: no address, and the token as mnemonic. -/
theorem test_unknown_line : assembleView "FOO A,B" = some [⟨"FOO".toList, [], none, 1, true⟩] := by decide
/-- L1-8. -/
theorem test_addresses :
    assembleErrors "MVI A,05H\nMOV B,A\nLDA 2000H\nADI 01H\nJMP 0000H\nCMA\nHLT" =
      some [(false, some 0), (false, some 2), (false, some 3), (false, some 6), (false, some 8), (false, some 0xB),
        (false, some 0xC)] := by decide
/-- AS-2, AS-3, AS-18: separators and literals. -/
theorem test_literals :
    assembleView "MVI A, 05h" = some [⟨"MVI".toList, [.reg .a, .num 5], some 0, 1, false⟩] ∧
    assembleView "MVI A 5" = some [⟨"MVI".toList, [.reg .a, .num 5], some 0, 1, false⟩] ∧
    assembleView "LDA 0FFFFH" = some [⟨"LDA".toList, [.num 0xFFFF], some 0, 1, false⟩] := by decide
/-- AS-5, AS-6: the size of a bad line is known from its mnemonic, an unknown mnemonic has none. -/
theorem test_error_sizes :
    assembleErrors "MVI A,100H\nHLT" = some [(true, some 0), (false, some 2)] ∧
    assembleErrors "FOO A,B\nHLT" = some [(true, none), (false, some 0)] := by decide
/-- AS-7, AS-8, AS-9, AS-17, AS-19, AS-20, AS-21, AS-22: error records. -/
theorem test_error_records :
    ["MVI M,05H", "MVI A,ZZ", "MVI A,-1", "JMP NOWHERE", "STA 10000H", "MOV A,B,C", "CMA A", "ADD"].map assembleErrors =
      List.replicate 8 (some [(true, some 0)]) := by decide
/-- AS-10 to AS-16, and the two refusals of R69: a control character, a comma in the mnemonic token. -/
theorem test_refusals :
    ["MVI A,12G", "MVI A,0x1F", "mvi A,05H", "MVI a,05H", "L1: HLT\nL1: HLT", "AB: JMP AB", "MVI A,,05H", "1L: HLT",
      "HLT\x07", "MVI,A 5"].map assembleRefusal =
      [some .ambiguousHex, some .ambiguousHex, some .caseFold, some .caseFold, some .duplicateLabel,
        some .labelHexClash, some .emptyOperand, some .labelSyntax, some .charSet, some .mnemonicComma] := by decide
/-- R71, R75: names that match only after upper-casing, with letters outside ASCII (dotless i, long s, a ligature). -/
theorem test_case_fold_outside_ascii :
    ["MV\u0131 A,05H", "\u017FTA 2000H", "\uFB05A 2000H", "MV\u00DF A,05H"].map assembleRefusal =
      [some .caseFold, some .caseFold, some .caseFold, none] := by decide
/-- AS-26, AS-27, AS-29 in small: the address counter at the top of the space. -/
theorem test_address_overflow :
    pass1From 0xFFFF [] ["HLT".toList] = .ok [] ∧
    pass1From 0x10000 [] ["HLT".toList] = .error .addressOverflow ∧
    pass1From 0x10000 [] ["X:".toList] = .error .addressOverflow ∧
    pass1From 0xFFFF [] ["LDA 0000H".toList] = .error .addressOverflow := by decide
/-- AS-23, AS-24: a forward reference, and case-sensitive labels. -/
theorem test_labels :
    assembleView "JMP L\nL: HLT" =
      some [⟨"JMP".toList, [.num 3], some 0, 1, false⟩, ⟨"HLT".toList, [], some 3, 2, false⟩] ∧
    (pass1 (sourceLines "loop: HLT\nLOOP: HLT".toList)).toOption = some [("loop".toList, 0), ("LOOP".toList, 1)] := by decide
/-- AS-30: the carriage return goes with the line's terminator. -/
theorem test_carriage_return :
    sourceLines "MVI A,05H\r\n".toList = ["MVI A,05H".toList, []] := by decide

/-! ### Witnesses of the statements' hypotheses -/

/-- A program of two records, laid out, with a self-loop at the end. -/
def loopProgram : List Record := [(Instr.mvi .a 1).toRecord 0, (Instr.jmp 0).toRecord 2]

theorem witness_ready : State.reset.Ready := rfl

/-- ResetCallResetsEveryField, from a halted engine. -/
theorem witness_reset_call :
    (testCalls CpuState.reset.halt [.reset]).loop = none ∧ (testCalls CpuState.reset.halt [.reset]).calls = [.reset] := by
  decide

/-- ResetZeroesStoredCell, at the last address. -/
theorem witness_reset_zeroes : ∃ t u, (testCalls (testCpu 7 0 0) [.reset]).Ready ∧
    exec (.sta 0xFFFF) (testCalls (testCpu 7 0 0) [.reset]) = .next t ∧ step t = .next u :=
  ⟨_, _, rfl, rfl, rfl⟩

/-- HaltedStepChangesNothing, for a known and an unknown record. -/
theorem witness_halted_step :
    decodeRecord (Instr.hlt.toRecord 0) = .ok (.known .hlt) ∧ decodeRecord (nopRecord 0) = .ok (.unknown ['N', 'O', 'P']) ∧
    (testState CpuState.reset.halt).cpu.halted = true := by decide

/-- UnknownMnemonicChangesNothing and UnknownRecordMovesOn. -/
theorem witness_unknown : (nopRecord 0).error = false ∧ (∀ m : Mnemonic, (nopRecord 0).mnemonic ≠ m.text) ∧
    (testRun CpuState.reset [nopRecord 0] 0).Ready ∧
    (testRun CpuState.reset [nopRecord 0] 0).loop = some ⟨[nopRecord 0], 0⟩ :=
  ⟨rfl, fun m => by cases m <;> decide, rfl, rfl⟩

/-- CmaTwiceRestoresA. -/
theorem witness_cma_twice : ∃ t u, exec .cma State.reset = .next t ∧ exec .cma t = .next u := ⟨_, _, rfl, rfl⟩

/-- PcTable: both clauses. -/
theorem witness_pc_table : (∃ t, exec (.jmp 0xFFFF) State.reset = .next t) ∧
    ∃ t, exec .hlt (testState CpuState.reset.halt) = .next t ∧ (testState CpuState.reset.halt).cpu.halted = true :=
  ⟨⟨_, rfl⟩, _, rfl, rfl⟩

/-- SizeIsPcIncrement. -/
theorem witness_size : (Instr.sta 0).mnemonic ≠ .jmp ∧ (Instr.sta 0).mnemonic ≠ .hlt := by decide

/-- RegisterWriters. -/
theorem witness_register_write : ∃ t, step (State.reset.withFetchWord 16 0x053E) = .next t ∧
    (State.reset.withFetchWord 16 0x053E).resetsNext = false ∧
    t.cpu.reg .a ≠ (State.reset.withFetchWord 16 0x053E).cpu.reg .a := ⟨_, rfl, by decide, by decide⟩

/-- FlagWriters, SpAndAcOnlyAtReset. -/
theorem witness_flag_write : ∃ t, step (State.reset.withFetchWord 16 0x00C6) = .next t ∧
    (State.reset.withFetchWord 16 0x00C6).resetsNext = false ∧
    t.cpu.flags ≠ (State.reset.withFetchWord 16 0x00C6).cpu.flags := ⟨_, rfl, by decide, by decide⟩

/-- MemoryWriters: a reset, and a store at the last address. -/
theorem witness_memory_write :
    (∃ t, step (testCalls CpuState.reset [.reset]) = .next t ∧ (testCalls CpuState.reset [.reset]).resetsNext = true) ∧
    ∃ t, step (testRun (testCpu 9 0 0) [(Instr.sta 0xFFFF).toRecord 0] 0) = .next t ∧
      (testRun (testCpu 9 0 0) [(Instr.sta 0xFFFF).toRecord 0] 0).resetsNext = false ∧
      t.cpu.load 0xFFFF ≠ (testRun (testCpu 9 0 0) [(Instr.sta 0xFFFF).toRecord 0] 0).cpu.load 0xFFFF :=
  ⟨⟨_, rfl, rfl⟩, _, rfl, by decide, by decide⟩

/-- FlagsPcSpSteerNothing: two states apart in flags and PC. -/
theorem witness_same_inputs :
    (testCpu 1 2 0).SameInputs { testCpu 1 2 0x1234 with flags := ⟨true, true, true, true, true⟩, sp := 0 } ∧
    ∃ t t', exec (.add .b) (testState (testCpu 1 2 0)) = .next t ∧
      exec (.add .b) (testState { testCpu 1 2 0x1234 with flags := ⟨true, true, true, true, true⟩, sp := 0 }) = .next t' :=
  ⟨⟨fun r => by cases r <;> rfl, fun _ => rfl, rfl⟩, _, _, rfl, rfl⟩

/-- FetchIgnoresMemoryAndPc: two states apart in memory and PC. -/
theorem witness_fetch :
    ∃ t t', step (testRun (testCpu 0 0 0) loopProgram 1) = .next t ∧
      step (testRun { testCpu 5 0 0x99 with mem := [(2, 0x76)] } loopProgram 1) = .next t' := ⟨_, _, rfl, rfl⟩

/-- FlagsPcSpSteerNothing on an instruction that writes no flag, and a jump; FetchWordRuns on a halted engine. -/
theorem witness_same_inputs_jump :
    (∃ t, exec (.jmp 5) (testState (testCpu 1 2 0)) = .next t) ∧ (∃ t, exec .cma (testState (testCpu 1 2 0)) = .next t) ∧
    decodeTableWord 16 0x053E = some (.mvi .a 5) ∧
    ∃ t, step ((testState CpuState.reset.halt).withFetchWord 16 0x053E) = .next t :=
  ⟨⟨_, rfl⟩, ⟨_, rfl⟩, by decide, _, rfl⟩

/-- LoadAfterStore: the same address, and another. -/
theorem witness_load_store : (∃ t u, exec (.sta 0xFFFF) (testState (testCpu 7 0 0)) = .next t ∧
      exec (.lda 0xFFFF) t = .next u ∧ u.cpu.a = 7) ∧
    ∃ t u, exec (.sta 0xFFFF) (testState (testCpu 7 0 0)) = .next t ∧ exec (.lda 0x0000) t = .next u ∧ u.cpu.a = 0 :=
  ⟨⟨_, _, rfl, rfl, rfl⟩, _, _, rfl, rfl, rfl⟩

/-- ReadyAndHalted: terminal, by HLT, by the auto-halt. -/
theorem witness_halting :
    (∃ t, step (testCalls CpuState.reset.halt [.snapshot]) = .next t ∧ t.cpu.halted = true) ∧
    (∃ t, step (testRun CpuState.reset [Instr.hlt.toRecord 0] 0) = .next t ∧ t.cpu.halted = true) ∧
    ∃ t, step (testRun CpuState.reset [Instr.hlt.toRecord 0] 1) = .next t ∧ t.cpu.halted = true :=
  ⟨⟨_, rfl, rfl⟩, ⟨_, rfl, rfl⟩, _, rfl, rfl⟩

/-- RecordDecoding: the four clauses, the shapes at the edge of their widths. -/
theorem witness_record_decoding :
    (hostRecord [] [] 0 true).error = true ∧
    operandsFit Mnemonic.mvi.operandKinds [.reg .l, .num 0xFF] = true ∧
    operandsFit Mnemonic.mvi.operandKinds [.reg .l, .num 0x100] = false := by decide

/-- HaltedStepChangesNothing, its refusals: an error record, and a malformed record a halted run reaches. -/
theorem witness_refused_records :
    undecodedRecord.error = true ∧
    operandsFit Mnemonic.mvi.operandKinds (hostRecord ['M', 'V', 'I'] [.reg .a] 0 false).operands = false ∧
    (testRun CpuState.reset.halt [hostRecord ['M', 'V', 'I'] [.reg .a] 0 false] 0).cpu.halted = true ∧
    refusalOf? (step (testRun CpuState.reset.halt [hostRecord ['M', 'V', 'I'] [.reg .a] 0 false] 0)) =
      some .malformedRecord := by decide

/-- ByteDecodingUnique. -/
theorem witness_bytes : decodeBytes [0xC3, 0xFF, 0xFF, 0x00] = .ok (.jmp 0xFFFF, [0x00]) := by decide

/-- StepRunsDecodedRecord: a record of a run, and a record of the host's call. -/
theorem witness_step_runs :
    ((testRun CpuState.reset loopProgram 1).loop = some ⟨loopProgram, 1⟩ ∧
      loopProgram[1]? = some ((Instr.jmp 0).toRecord 2) ∧
      decodeRecord ((Instr.jmp 0).toRecord 2) = .ok (.known (.jmp 0))) ∧
    (testCalls CpuState.reset [.executeInstruction (Instr.cma.toRecord 0)]).loop = none ∧
    decodeRecord (Instr.cma.toRecord 0) = .ok (.known .cma) := by decide

/-- OnlyJmpMovesIndex, PcOffsetKept, PcIsRecordAddress: a step that is no JMP, and a JMP that finds its target. -/
theorem witness_loop_goes_on :
    (∃ t, step (testRun CpuState.reset loopProgram 0) = .next t ∧ t.loop = some ⟨loopProgram, 1⟩) ∧
    (∃ t, step (testRun (testCpu 0 0 2) loopProgram 1) = .next t ∧ t.loop = some ⟨loopProgram, 0⟩) ∧
    laidOutFrom 0 loopProgram = true :=
  ⟨⟨_, rfl, rfl⟩, ⟨_, rfl, rfl⟩, by decide⟩

/-- PcIsRecordAddress: PC agrees at the second record, and the entry of a run at PC 0. -/
theorem witness_pc_agrees : (testRun (testCpu 0 0 2) loopProgram 1).PcAgrees ∧
    (testRun (testCpu 0 0 2) loopProgram 1).ProgramLaidOut ∧
    ∃ t, step (testCalls CpuState.reset [.run loopProgram (.int 0)]) = .next t := by
  refine ⟨?_, ?_, _, rfl⟩
  · intro run h r hr
    cases h
    cases hr
    rfl
  · intro run h
    cases h
    decide

/-- RunStops: the three ways; RunStopConditions: the index at the length, and a halted engine. -/
theorem witness_run_stops :
    (∃ t, step (testRun CpuState.reset [Instr.hlt.toRecord 0] 0) = .next t ∧ t.loop = none) ∧
    (∃ t, step (testRun CpuState.reset [Instr.hlt.toRecord 0] 1) = .next t ∧ t.loop = none) ∧
    (∃ t, step (testRun CpuState.reset [(Instr.jmp 1).toRecord 0] 0) = .next t ∧ t.loop = none) ∧
    (testRun CpuState.reset.halt [Instr.hlt.toRecord 0] 0).cpu.halted = true :=
  ⟨⟨_, rfl, rfl⟩, ⟨_, rfl, rfl⟩, ⟨_, rfl, rfl⟩, rfl⟩

/-- RunStopConditions: the records of its last three clauses decode, and the jump has no target. -/
theorem witness_stop_conditions :
    decodeRecord (Instr.hlt.toRecord 0) = .ok (.known .hlt) ∧
    decodeRecord ((Instr.jmp 1).toRecord 0) = .ok (.known (.jmp 1)) ∧
    lookupAddress 1 [(Instr.jmp 1).toRecord 0] = none := by decide

/-- RunEntry: start index 0, an error record, a negative index and a number that is no integer. -/
theorem witness_run_entry :
    noErrorRecord loopProgram = true ∧ noErrorRecord [undecodedRecord] = false ∧
    (testCalls CpuState.reset [.run loopProgram (.int 0)]).loop = none ∧
    refusalOf? (step (testCalls CpuState.reset [.run loopProgram .nonInteger])) = some .badIndex := by decide

/-- WellFormedRunNeverStuck. -/
theorem witness_wellformed_run : ∀ r ∈ nopRecord 9 :: loopProgram, r.wellFormed = true := by decide

/-- BoundedRunAgreesWithSteps: a return, a refusal, and a run out of fuel. -/
theorem witness_bounded_run :
    (∃ t, iterateRun [Instr.hlt.toRecord 0] 1 0 (testRun CpuState.reset [Instr.hlt.toRecord 0] 0) =
      .returned .halt (some 0) t) ∧
    iterateRun [undecodedRecord] 1 0 (testRun CpuState.reset [undecodedRecord] 0) = .refused .errorRecord ∧
    iterateRun [(Instr.jmp 0).toRecord 0] 2 0 (testRun CpuState.reset [(Instr.jmp 0).toRecord 0] 0) = .outOfFuel :=
  ⟨⟨_, rfl⟩, rfl, rfl⟩

/-- StepKeepsInvariant, in a run that stores. -/
theorem witness_invariant : (testRun (testCpu 9 0 0) [(Instr.sta 1).toRecord 0] 0).Inv ∧
    ∃ t, step (testRun (testCpu 9 0 0) [(Instr.sta 1).toRecord 0] 0) = .next t := by
  refine ⟨⟨by decide, rfl, fun run h => ?_⟩, _, rfl⟩
  cases h
  decide

/-- ReadingCallsChangeNothing: the three clauses; CallsWaitForTheRun: a run in flight, and an idle machine. -/
theorem witness_host_calls :
    (∃ t, step (testCalls CpuState.reset [.snapshot]) = .next t) ∧
    (∃ t, step (testCalls CpuState.reset [.getMemory (.int (-1)) (.int 3)]) = .next t) ∧
    refusalOf? (step (testCalls CpuState.reset [.getMemory .nonInteger (.int 2)])) = some .badMemoryArgs ∧
    (∃ t, step (testRun CpuState.reset loopProgram 0) = .next t ∧ t.loop.isSome = true) ∧
    step State.reset = .next State.reset :=
  ⟨⟨_, rfl⟩, ⟨_, rfl⟩, rfl, ⟨_, rfl, rfl⟩, rfl⟩

/-- The assembler's statements: a source with a label, an error record and an unknown mnemonic, and one without. -/
theorem witness_assembled : assembleErrors "FOO\nADI 100H" = some [(true, none), (true, some 0)] := by decide
theorem witness_assembled_clean :
    assembleErrors "L: HLT\nJMP L" = some [(false, some 0), (false, some 1)] := by decide
theorem witness_labelled_line :
    (match pass1 ["L:HLT".toList, "M:CMA".toList] with
      | .ok labels => labels == [("L".toList, 0), ("M".toList, 1)]
      | .error _ => false) = true ∧
    ["L:HLT".toList, "M:CMA".toList][1]? = some "M:CMA".toList ∧
    parseLine "M:CMA".toList = .ok { label := some "M".toList, code := some ("CMA".toList, []) } :=
  ⟨rfl, rfl, rfl⟩

/-- LabelsPointAtTheirLines, a label used before it is defined: the lines, their parts, and the source's records. -/
theorem witness_label_operand :
    sourceLines "JMP L\nL:HLT".toList = ["JMP L".toList, "L:HLT".toList] ∧
    parseLine "L:HLT".toList = .ok { label := some "L".toList, code := some ("HLT".toList, []) } ∧
    parseLine "JMP L".toList = .ok { label := none, code := some (Mnemonic.jmp.text, "L".toList) } ∧
    splitOperands "L".toList = .ok ["L".toList] ∧
    assembleView "JMP L\nL:HLT" = some [⟨"JMP".toList, [.num 3], some 0, 1, false⟩, ⟨"HLT".toList, [], some 3, 2, false⟩] :=
  ⟨rfl, rfl, rfl, rfl, by decide⟩

/-- BlankAndCommentLines. -/
theorem witness_blank :
    (∀ c ∈ [' ', '\t'], isWhite c = true) ∧ ∀ c ∈ [' ', 'x', ';', '\t'], isControl c = false ∨ c = '\t' := by
  constructor <;> simp [isWhite, isControl]

end Sys2Proof.Machine
end

section
/-! PROOFS of the statements on the state (10_state.md). First what each instruction's effect does to one field of the
CPU state, then the statements, each read off from `exec_next` or `step_cpu`. -/

namespace Sys2Proof.Machine

/-! ### Reads after writes, both cases in one equation -/

theorem setReg_reg (c : CpuState) (r q : Reg) (v : Byte) :
    (c.setReg r v).reg q = if q = r then v else c.reg q := by
  split
  next h => rw [h, setReg_reg_self]
  next h => exact setReg_reg_ne c h v

theorem arith_reg (c : CpuState) (x : Int) (q : Reg) :
    (c.arith x).reg q = if q = .a then lowByte x else c.reg q := by
  split
  next h => rw [h, arith_reg_a]
  next h => exact arith_reg_ne c h x

theorem store_load (c : CpuState) (addr other : Addr) (v : Byte) :
    (c.store addr v).load other = if other = addr then v else c.load other := by
  split
  next h => rw [h, load_store_self]
  next h => exact load_store_ne c h v

/-! ### The effect of an instruction, field by field -/

theorem advance_pcAdvanced (c : CpuState) (n : Nat) : PcAdvanced n c.pc (c.advance n).pc := by
  simp [PcAdvanced]

/-- R26's table, read on the effect. -/
theorem effectOf_pcFollows (i : Instr) (c : CpuState) : PcFollows i c.pc (effectOf i c).pc := by
  cases i with
  | jmp | hlt => rfl
  | mvi | mov | lda | cma => simpa [effectOf, PcFollows] using advance_pcAdvanced c _
  | sta | add | adi | sub | sui => exact advance_pcAdvanced c _

/-- R25's table: a register the instruction does not write is kept. -/
theorem effectOf_reg_of_not_writesReg {i : Instr} {r : Reg} (h : ¬ WritesReg r i) (c : CpuState) :
    (effectOf i c).reg r = c.reg r := by
  cases i with
  | mvi q | mov q => simp [effectOf, setReg_reg_ne c (Ne.symm h)]
  | lda | cma => simp [effectOf, setReg_reg_ne c h]
  | add | adi | sub | sui => simp [effectOf, arith_reg_ne c h]
  | sta | jmp | hlt => simp [effectOf]

theorem effectOf_flags_of_not_affectsFlags {i : Instr} (h : ¬ AffectsFlags i) (c : CpuState) :
    (effectOf i c).flags = c.flags := by
  cases i with
  | add | adi | sub | sui => exact absurd trivial h
  | mvi | mov | lda | sta | jmp | cma | hlt => simp [effectOf]

@[simp] theorem effectOf_sp (i : Instr) (c : CpuState) : (effectOf i c).sp = c.sp := by
  cases i <;> simp [effectOf]

@[simp] theorem effectOf_ac (i : Instr) (c : CpuState) : (effectOf i c).flags.ac = c.flags.ac := by
  cases i <;> simp [effectOf]

/-- The amount by which an instruction other than `JMP` moves PC does not depend on the state. -/
theorem effectOf_pc_sub {i : Instr} (h : ∀ addr, i ≠ .jmp addr) (c c' : CpuState) :
    (effectOf i c).pc - c.pc = (effectOf i c').pc - c'.pc := by
  cases i with
  | jmp addr => exact absurd rfl (h addr)
  | mvi | mov | lda | sta | add | adi | sub | sui | cma => simp [effectOf, add_sub_cancel_left]
  | hlt => simp [effectOf]

/-! ### The effect on two states an instruction cannot tell apart -/

section SameInputs

variable {c c' : CpuState} (h : c.SameInputs c')
include h

theorem effectOf_sameInputs (i : Instr) : (effectOf i c).SameInputs (effectOf i c') := by
  obtain ⟨hreg, hload, hhalted⟩ := h
  cases i with
  | mvi | mov | lda | cma => simp [CpuState.SameInputs, effectOf, setReg_reg, hreg, hload, hhalted]
  | add | adi | sub | sui => simp [CpuState.SameInputs, effectOf, arith_reg, hreg, hload, hhalted]
  | sta => simp [CpuState.SameInputs, effectOf, store_load, hreg, hload, hhalted]
  | jmp | hlt => simp [CpuState.SameInputs, effectOf, hreg, hload, hhalted]

/-- The flags an arithmetic instruction writes are functions of what it can see. -/
theorem effectOf_flags_agree {i : Instr} (hi : AffectsFlags i) :
    (effectOf i c).flags.z = (effectOf i c').flags.z ∧ (effectOf i c).flags.s = (effectOf i c').flags.s ∧
      (effectOf i c).flags.cy = (effectOf i c').flags.cy ∧ (effectOf i c).flags.p = (effectOf i c').flags.p := by
  obtain ⟨hreg, -, -⟩ := h
  cases i with
  | add | adi | sub | sui => simp [effectOf, hreg]
  | mvi | mov | lda | sta | jmp | cma | hlt => exact hi.elim

end SameInputs

/-! ### Steps of the machine other than `reset()` -/

/-- A part of the CPU state that neither `running` nor the halt is in, and that a step other than `reset()` changes,
was changed by the effect of the instruction the step executed. -/
theorem step_changes_by_effect {α : Type} (get : CpuState → α) (hrun : ∀ c b, get (c.setRunning b) = get c)
    (hhalt : ∀ c : CpuState, get c.halt = get c) {s t : State} (h : step s = .next t) (hr : s.resetsNext = false)
    (hne : get t.cpu ≠ get s.cpu) :
    ∃ i, s.stepInstr? = some i ∧ get (effectOf i s.cpu) ≠ get s.cpu := by
  obtain ⟨hreset, -⟩ | ⟨-, c, b, ht, hc⟩ := step_cpu h
  · exact absurd hreset (by simp [hr])
  · rw [ht, hrun] at hne
    obtain rfl | ⟨-, i, hi, rfl⟩ | ⟨rfl, -⟩ := hc
    · exact absurd rfl hne
    · exact ⟨i, hi, hne⟩
    · exact absurd (hhalt _) hne

/-- What every instruction's effect keeps, every step other than `reset()` keeps. -/
theorem step_keeps_of_effect {α : Type} (get : CpuState → α) (hrun : ∀ c b, get (c.setRunning b) = get c)
    (hhalt : ∀ c : CpuState, get c.halt = get c) (heffect : ∀ i c, get (effectOf i c) = get c) {s t : State}
    (h : step s = .next t) (hr : s.resetsNext = false) : get t.cpu = get s.cpu := by
  by_contra hne
  obtain ⟨i, -, hi⟩ := step_changes_by_effect get hrun hhalt h hr hne
  exact hi (heffect i _)

/-! ### The statements -/

/-- Settles O22: `exec` does nothing to the CPU on a halted engine, and its instruction's effect on a ready one. -/
theorem pcTable : Obligations.PcTable := by
  intro i s t h
  obtain ⟨hh, rfl⟩ | ⟨hh, rfl⟩ := exec_next h
  · exact ⟨fun hready => Bool.noConfusion (hh.symm.trans hready), fun _ => rfl⟩
  · exact ⟨fun _ => effectOf_pcFollows i s.cpu, fun hhalted => Bool.noConfusion (hh.symm.trans hhalted)⟩

/-- Settles O24: the register changed by an instruction's effect, and an effect keeps what it does not write. -/
theorem registerWriters : Obligations.RegisterWriters := by
  intro s t r h hr hne
  obtain ⟨i, hi, hchanged⟩ := step_changes_by_effect (·.reg r) (by simp) (by simp) h hr hne
  exact ⟨i, hi, by_contra fun hw => hchanged (effectOf_reg_of_not_writesReg hw _)⟩

/-- Settles O25, as O24 for the flags. -/
theorem flagWriters : Obligations.FlagWriters := by
  intro s t h hr hne
  obtain ⟨i, hi, hchanged⟩ := step_changes_by_effect (·.flags) (by simp) (by simp) h hr hne
  exact ⟨i, hi, by_contra fun ha => hchanged (effectOf_flags_of_not_affectsFlags ha _)⟩

/-- Settles O26: no effect writes SP or AC. -/
theorem spAndAcOnlyAtReset : Obligations.SpAndAcOnlyAtReset := fun _ _ h hr =>
  ⟨step_keeps_of_effect (·.sp) (by simp) (by simp) (by simp) h hr,
    step_keeps_of_effect (·.flags.ac) (by simp) (by simp) (by simp) h hr⟩

/-- Settles O28: two states with the same inputs are both halted, where nothing happens, or both ready, where the two
effects agree. -/
theorem flagsPcSpSteerNothing : Obligations.FlagsPcSpSteerNothing := by
  intro i s s' t t' hsame h h'
  have hhalted : s'.cpu.halted = s.cpu.halted := hsame.2.2
  cases hh : s.cpu.halted with
  | true =>
    rw [exec_halted i hh] at h
    rw [exec_halted i (hhalted.trans hh)] at h'
    cases h
    cases h'
    simpa [hh] using hsame
  | false =>
    rw [exec_ready i hh] at h
    rw [exec_ready i (hhalted.trans hh)] at h'
    cases h
    cases h'
    refine ⟨effectOf_sameInputs hsame i, rfl, fun _ hi => effectOf_flags_agree hsame hi, fun hkept => ?_, ?_,
      fun hjmp => ?_, effectOf_sp i s.cpu, effectOf_sp i s'.cpu⟩
    · have hi : ¬ AffectsFlags i := hkept.resolve_left Bool.false_ne_true
      exact ⟨effectOf_flags_of_not_affectsFlags hi _, effectOf_flags_of_not_affectsFlags hi _⟩
    · rintro - addr rfl
      exact ⟨rfl, rfl⟩
    · exact effectOf_pc_sub (hjmp.resolve_left Bool.false_ne_true) s.cpu s'.cpu

/-- Settles O1: each reset value by definition; an empty memory reads 0x00 everywhere. -/
theorem resetValues : Obligations.ResetValues :=
  ⟨fun r => by cases r <;> rfl, rfl, rfl, rfl, rfl, rfl, rfl, rfl, fun _ => rfl, rfl, rfl⟩

/-- Settles O50: the empty memory is canonical and no run is in flight. -/
theorem resetMeetsInvariant : Obligations.ResetMeetsInvariant :=
  ⟨wf_reset, rfl, fun _ h => nomatch h⟩

end Sys2Proof.Machine
end

section
/-! PROOFS of the statements on memory (20_memory.md): the one store, the load after it, the fetch that does not see
it, and the accessor's map. -/

namespace Sys2Proof.Machine

/-! ### The effect of an instruction on memory -/

/-- R56 on the effect: `STA` writes A to its one address, and nothing else writes memory. -/
theorem effectOf_load (i : Instr) (c : CpuState) (addr : Addr) :
    (effectOf i c).load addr = if i = .sta addr then c.reg .a else c.load addr := by
  cases i with
  | sta target => simp [effectOf, store_load, eq_comm]
  | mvi | mov | lda | add | adi | sub | sui | jmp | cma | hlt => simp [effectOf]

/-- Settles O27: only an executed instruction's effect can change a byte, and only the effect of `STA` does. -/
theorem memoryWriters : Obligations.MemoryWriters := by
  intro s t addr h
  obtain ⟨hr, ht⟩ | ⟨hr, c, b, ht, hc⟩ := step_cpu h
  · exact ⟨fun _ => by rw [ht]; rfl, fun hr' => Bool.noConfusion (hr.symm.trans hr')⟩
  · refine ⟨fun hr' => Bool.noConfusion (hr.symm.trans hr'), fun _ hne => ?_⟩
    rw [ht, setRunning_load] at hne ⊢
    obtain rfl | ⟨-, i, hi, rfl⟩ | ⟨rfl, -⟩ := hc
    · exact absurd rfl hne
    · rw [effectOf_load] at hne ⊢
      obtain ⟨rfl, -⟩ := ite_ne_right_iff.1 hne
      exact ⟨hi, if_pos rfl⟩
    · exact absurd (halt_load _ _) hne

/-- Settles O30: `STA` leaves the engine ready, so both effects happen, and the load reads the stored memory. -/
theorem loadAfterStore : Obligations.LoadAfterStore := by
  intro s t u addr other hready hsta hlda
  rw [exec_ready _ hready] at hsta
  cases hsta
  rw [exec_ready _ (by simpa [effectOf] using hready)] at hlda
  cases hlda
  simp [effectOf, store_load]

/-! ### The loop after a step, seen from two states -/

@[simp] theorem applyLoopResult_halted (prog : List Record) (x : State × LoopResult) :
    (applyLoopResult prog x).cpu.halted = x.1.cpu.halted := by
  obtain ⟨b, hb⟩ := applyLoopResult_cpu prog x
  rw [hb, setRunning_halted]

/-- Of the state an iteration's step left, going on reads `halted` alone (R112, R114). -/
theorem applyLoopResult_afterStep_loop_congr (prog : List Record) (idx : Nat) (d : Decoded) {u u' : State}
    (h : u'.cpu.halted = u.cpu.halted) :
    (applyLoopResult prog (afterStep prog idx d u')).loop = (applyLoopResult prog (afterStep prog idx d u)).loop := by
  simp only [applyLoopResult_loop, afterStep, h]

/-- Settles O29: both steps reach the end of the program, or both step the same record from the same `halted`. -/
theorem fetchIgnoresMemoryAndPc : Obligations.FetchIgnoresMemoryAndPc := by
  intro s s' t t' hrun hloop hhalted h h'
  obtain ⟨run, hl⟩ := Option.isSome_iff_exists.1 hrun
  obtain ⟨hp, rfl⟩ | ⟨record, d, u, hp, hd, hu, rfl⟩ := step_inFlight_next hl h <;>
    obtain ⟨hp', rfl⟩ | ⟨record', d', u', hp', hd', hu', rfl⟩ := step_inFlight_next (hloop.trans hl) h'
  case inl.inl => exact ⟨rfl, rfl⟩
  case inl.inr | inr.inl => exact nomatch hp.symm.trans hp'
  case inr.inr =>
    cases hp.symm.trans hp'
    cases hd.symm.trans hd'
    have hu_halted : u'.cpu.halted = u.cpu.halted := by rw [execDecoded_halted hu, execDecoded_halted hu', hhalted]
    exact ⟨applyLoopResult_afterStep_loop_congr _ _ _ hu_halted, by simpa [afterStep] using hu_halted⟩

/-! ### Four hexadecimal digits name one address -/

/-- The four digits of an address, read as base 16, are the address. -/
theorem hexNumber_hex4 (a : Addr) : hexNumber (hex4 a) = a.toNat := by
  have h3 : a.toNat / 4096 < 16 := by omega
  have h2 : a.toNat / 256 % 16 < 16 := Nat.mod_lt _ (by decide)
  have h1 : a.toNat / 16 % 16 < 16 := Nat.mod_lt _ (by decide)
  have h0 : a.toNat % 16 < 16 := Nat.mod_lt _ (by decide)
  simp only [hexNumber, hex4, hexNumberFrom, hexValue_hexDigit _ h3, hexValue_hexDigit _ h2, hexValue_hexDigit _ h1,
    hexValue_hexDigit _ h0, Option.getD_some]
  omega

theorem hex4_injective : Function.Injective hex4 := fun a b h =>
  BitVec.eq_of_toNat_eq (by rw [← hexNumber_hex4 a, ← hexNumber_hex4 b, h])

/-! ### The addresses of a range, clipped (R55, D9) -/

/-- The numbers from `start` to `start + length - 1` that are addresses, in rising order. -/
def clippedIndices (start length : Int) : List Nat :=
  let lo := (max start 0).toNat
  let hi := (min (start + length) Config.addressSpaceSize).toNat
  List.range' lo (hi - lo)

/-- The addresses `getMemory` reads, in the order it lists them. -/
def clippedRange (start length : Int) : List Addr := (clippedIndices start length).map (BitVec.ofNat 16)

theorem getMemory_eq_map (c : CpuState) (start length : Int) :
    getMemory c start length = (clippedRange start length).map fun addr => (hex4 addr, c.load addr) := by
  simp [getMemory, clippedRange, clippedIndices]

theorem mem_clippedIndices {start length : Int} {n : Nat} :
    n ∈ clippedIndices start length ↔ n < 0x10000 ∧ start ≤ (n : Int) ∧ (n : Int) < start + length := by
  simp only [clippedIndices, Config.addressSpaceSize, List.mem_range'_1]
  omega

/-- Clipped to the address space, no number wraps when it is read as an address. -/
theorem clippedRange_map_toNat (start length : Int) :
    (clippedRange start length).map BitVec.toNat = clippedIndices start length := by
  rw [clippedRange, List.map_map]
  have hkept : ∀ n ∈ clippedIndices start length, (BitVec.toNat ∘ BitVec.ofNat 16) n = id n := fun n hn =>
    Nat.mod_eq_of_lt (mem_clippedIndices.1 hn).1
  rw [List.map_congr_left hkept, List.map_id]

theorem mem_clippedRange {start length : Int} {addr : Addr} :
    addr ∈ clippedRange start length ↔ start ≤ (addr.toNat : Int) ∧ (addr.toNat : Int) < start + length := by
  rw [← List.mem_map_of_injective (f := BitVec.toNat) fun _ _ => BitVec.eq_of_toNat_eq, clippedRange_map_toNat,
    mem_clippedIndices]
  exact and_iff_right addr.isLt

theorem pairwise_clippedRange (start length : Int) :
    (clippedRange start length).Pairwise fun x y => x.toNat < y.toNat := by
  rw [← List.pairwise_map, clippedRange_map_toNat]
  exact List.pairwise_lt_range' 1

/-- Settles O51: the map's entries are those of the clipped range's addresses, and no two addresses have the same four
digits. -/
theorem getMemoryMap : Obligations.GetMemoryMap := by
  intro c start length
  have hrising := pairwise_clippedRange start length
  have hnodup : (clippedRange start length).Nodup := hrising.imp fun hlt heq => Nat.ne_of_lt hlt (congrArg _ heq)
  have hentry : Function.Injective fun addr : Addr => (hex4 addr, c.load addr) := fun _ _ h =>
    hex4_injective (congrArg Prod.fst h)
  rw [getMemory_eq_map]
  refine ⟨fun addr => (List.mem_map_of_injective hentry).trans mem_clippedRange, ?_, _, rfl, hrising⟩
  rw [List.map_map]
  exact hnodup.map hex4_injective

end Sys2Proof.Machine
end

section
/-! PROOFS of the statements on decoding and encoding (30_encoding.md sections 1, 2 and 5): the byte table read in both
directions, the record decoder's four cases, and the sizes. -/

namespace Sys2Proof.Machine

/-! ### The byte table -/

/-- Settles O34: the first byte of each format names its mnemonic and its registers, and what is left are the bytes
after it; an address is put together from its two. -/
theorem byteRoundTrip : Obligations.ByteRoundTrip := by
  intro i rest
  cases i with
  | mvi r => cases r <;> rfl
  | mov rd rs => cases rd <;> cases rs <;> rfl
  | add r | sub r => cases r <;> rfl
  | lda addr | sta addr | jmp addr =>
    exact congrArg (fun a => Except.ok (_, rest)) (addr_of_bytes addr)
  | adi | sui | cma | hlt => rfl

theorem code_of_ofCode {code : BitVec 3} {r : Reg} (h : Reg.ofCode code = some r) : r.code = code := by
  simpa using List.find?_some h

/-- The first byte of a mnemonic with the fields `d` at bits 5..3 and `s` at bits 2..0, where it has them (R86). -/
def opcodeByte (m : Mnemonic) (d s : BitVec 3) : Byte :=
  match m with
  | .mvi => (0b00 : BitVec 2) ++ d ++ (0b110 : BitVec 3)
  | .mov => (0b01 : BitVec 2) ++ d ++ s
  | .lda => 0x3A
  | .sta => 0x32
  | .add => (0b10000 : BitVec 5) ++ s
  | .adi => 0xC6
  | .sub => (0b10010 : BitVec 5) ++ s
  | .sui => 0xD6
  | .jmp => 0xC3
  | .cma => 0x2F
  | .hlt => 0x76

/-- Every row of the byte table fixes the first byte outside its register fields. -/
theorem opcodeByte_of_mnemonicOfByte :
    ∀ (op : Byte) (m : Mnemonic), mnemonicOfByte op = some m →
      op = opcodeByte m (op.extractLsb' 3 3) (op.extractLsb' 0 3) := by
  have h : ∀ op : Byte, ∀ m ∈ mnemonicOfByte op, op = opcodeByte m (op.extractLsb' 3 3) (op.extractLsb' 0 3) := by
    decide
  exact h

/-! ### What the pieces of a decoding were, when it answers -/

theorem exists_of_map_eq_ok {ε α β : Type} {x : Except ε α} {f : α → β} {b : β} (h : x.map f = .ok b) :
    ∃ a, x = .ok a ∧ f a = b := by
  cases x with
  | error e => exact nomatch h
  | ok a => exact ⟨a, rfl, Except.ok.inj h⟩

theorem exists_of_bind_eq_ok {ε α β : Type} {x : Except ε α} {f : α → Except ε β} {b : β} (h : x.bind f = .ok b) :
    ∃ a, x = .ok a ∧ f a = .ok b := by
  cases x with
  | error e => exact nomatch h
  | ok a => exact ⟨a, rfl, h⟩

theorem code_of_needReg {op : Byte} {code : BitVec 3} {r : Reg} (h : needReg op (Reg.ofCode code) = .ok r) :
    code = r.code :=
  (code_of_ofCode (needReg_ok h)).symm

theorem eq_cons_of_takeImm {bytes : List Byte} {x : Byte × List Byte} (h : takeImm bytes = .ok x) :
    bytes = x.1 :: x.2 := by
  cases bytes with
  | nil => exact nomatch h
  | cons v rest => cases h; rfl

theorem eq_append_of_takeAddr {bytes : List Byte} {x : Addr × List Byte} (h : takeAddr bytes = .ok x) :
    bytes = addrBytes x.1 ++ x.2 := by
  match bytes, h with
  | lo :: hi :: rest, h => cases h; rw [addrBytes_of_bytes]; rfl

/-- The operands read after a first byte encode, with that byte, to what was read. -/
theorem eq_encode_of_decodeBody {m : Mnemonic} {op : Byte} {tail rest : List Byte} {i : Instr}
    (h : decodeBody m op tail = .ok (i, rest)) :
    opcodeByte m (op.extractLsb' 3 3) (op.extractLsb' 0 3) :: tail = encode i ++ rest := by
  cases m with
  | mvi =>
    obtain ⟨r, hr, h⟩ := exists_of_bind_eq_ok h
    obtain ⟨x, hx, h⟩ := exists_of_map_eq_ok h
    cases h
    rw [code_of_needReg hr, eq_cons_of_takeImm hx]
    rfl
  | mov =>
    obtain ⟨rd, hd, h⟩ := exists_of_bind_eq_ok h
    obtain ⟨rs, hs, h⟩ := exists_of_map_eq_ok h
    cases h
    rw [code_of_needReg hd, code_of_needReg hs]
    rfl
  | lda | sta | jmp =>
    obtain ⟨x, hx, h⟩ := exists_of_map_eq_ok h
    cases h
    rw [eq_append_of_takeAddr hx]
    rfl
  | add | sub =>
    obtain ⟨r, hr, h⟩ := exists_of_map_eq_ok h
    cases h
    rw [code_of_needReg hr]
    rfl
  | adi | sui =>
    obtain ⟨x, hx, h⟩ := exists_of_map_eq_ok h
    cases h
    rw [eq_cons_of_takeImm hx]
    rfl
  | cma | hlt =>
    cases h
    rfl

/-- Settles O35: the first byte is its mnemonic's with the register fields it has, and the operands follow it. -/
theorem byteDecodingUnique : Obligations.ByteDecodingUnique := by
  intro bytes rest i h
  cases bytes with
  | nil => exact nomatch h
  | cons op tail =>
    cases hm : mnemonicOfByte op with
    | none => simp [decodeBytes, hm] at h
    | some m =>
      have hbody : decodeBody m op tail = .ok (i, rest) := by simpa [decodeBytes, hm] using h
      exact (congrArg (· :: tail) (opcodeByte_of_mnemonicOfByte op m hm)).trans (eq_encode_of_decodeBody hbody)

/-- Settles O36: the eight words are evaluated. -/
theorem wordsDecode : Obligations.WordsDecode := by
  unfold Obligations.WordsDecode
  decide

/-! ### The record decoder (R82) -/

theorem decodeRecord_error {r : Record} (h : r.error = true) : decodeRecord r = .error .errorRecord := by
  simp [decodeRecord, h]

theorem decodeRecord_unknown {r : Record} (h : r.error = false) (hm : Mnemonic.ofText r.mnemonic = none) :
    decodeRecord r = .ok (.unknown r.mnemonic) := by
  simp [decodeRecord, h, hm]

/-- On a known mnemonic the operands decide. -/
theorem decodeRecord_of_mnemonic {r : Record} {m : Mnemonic} (h : r.error = false) (hm : r.mnemonic = m.text) :
    decodeRecord r = (decodeOperands m r.operands).elim (.error .malformedRecord) fun i => .ok (.known i) := by
  cases hops : decodeOperands m r.operands <;> simp [decodeRecord, h, hm, ofText_text, hops]

theorem decodeRecord_of_fit {r : Record} {m : Mnemonic} (h : r.error = false) (hm : r.mnemonic = m.text)
    (hfit : operandsFit m.operandKinds r.operands = true) :
    ∃ i, decodeRecord r = .ok (.known i) ∧ i.mnemonic = m ∧ i.operands = r.operands := by
  obtain ⟨i, hi, hm', hops⟩ := (decodeOperands_cases m r.operands).1 hfit
  exact ⟨i, by rw [decodeRecord_of_mnemonic h hm, hi]; rfl, hm', hops⟩

/-- Settles O32: `decodeOperands_cases` on the record's mnemonic. -/
theorem recordDecoding : Obligations.RecordDecoding := fun r =>
  ⟨decodeRecord_error, fun h hm => decodeRecord_unknown h (ofText_none hm), fun _ h hm => decodeRecord_of_fit h hm,
    fun m h hm hfit => by rw [decodeRecord_of_mnemonic h hm, (decodeOperands_cases m r.operands).2 hfit]; rfl⟩

/-- An instruction's own operands decode to it: registers are kept, and every byte and address is within its width. -/
theorem decodeOperands_operands (i : Instr) : decodeOperands i.mnemonic i.operands = some i := by
  cases i with
  | mvi r v => exact congrArg (Option.map (Instr.mvi r)) (imm8_of_byte v)
  | adi v => exact congrArg (Option.map Instr.adi) (imm8_of_byte v)
  | sui v => exact congrArg (Option.map Instr.sui) (imm8_of_byte v)
  | lda addr => exact congrArg (Option.map Instr.lda) (addr16_of_addr addr)
  | sta addr => exact congrArg (Option.map Instr.sta) (addr16_of_addr addr)
  | jmp addr => exact congrArg (Option.map Instr.jmp) (addr16_of_addr addr)
  | mov | add | sub | cma | hlt => rfl

/-- Settles O33: the record has the instruction's mnemonic and operands. -/
theorem recordRoundTrip : Obligations.RecordRoundTrip := fun i addr => by
  rw [decodeRecord_of_mnemonic (r := i.toRecord addr) (m := i.mnemonic) rfl rfl]
  simp [Instr.toRecord, decodeOperands_operands]

/-! ### The sizes (R67) -/

/-- R26's table in terms of the size table: but for `JMP` and `HLT`, PC advances by the size. -/
theorem pcAdvanced_size_of_pcFollows {i : Instr} {before after : Addr} (hjmp : i.mnemonic ≠ .jmp)
    (hhlt : i.mnemonic ≠ .hlt) (h : PcFollows i before after) : PcAdvanced i.mnemonic.size before after := by
  cases i with
  | jmp => exact absurd rfl hjmp
  | hlt => exact absurd rfl hhlt
  | mvi | mov | lda | sta | add | adi | sub | sui | cma => exact h

/-- Settles O23: the table by definition, and the instruction's effect on PC. -/
theorem sizeIsPcIncrement : Obligations.SizeIsPcIncrement :=
  ⟨by decide, fun i s hready hjmp hhlt =>
    ⟨_, exec_ready i hready, pcAdvanced_size_of_pcFollows hjmp hhlt (effectOf_pcFollows i s.cpu)⟩⟩

end Sys2Proof.Machine
end

section
/-! PROOFS of the statements on the two passes (30_encoding.md sections 1, 2 and 4). First what a line's record says of
its line; then each pass taken to the line it reads, where the running address is the sum of the sizes before. -/

namespace Sys2Proof.Machine

/-! ### A line's parts, read from its parse -/

section Parsed

variable {line : Text} {p : ParsedLine} (h : parseLine line = .ok p)
include h

theorem mnemonicOfLine_of_parseLine : mnemonicOfLine line = p.mnemonic? := by simp [mnemonicOfLine, h]

theorem sizeOfLine_of_parseLine : sizeOfLine line = p.size := by simp [sizeOfLine, h]

theorem carriesMnemonic_of_parseLine : carriesMnemonic line = p.code.isSome := by simp [carriesMnemonic, h]

end Parsed

theorem mnemonic?_of_code {p : ParsedLine} {code : Text × Text} (h : p.code = some code) :
    p.mnemonic? = Mnemonic.ofText code.1 := by
  simp [ParsedLine.mnemonic?, h]

theorem size_of_code_none {p : ParsedLine} (h : p.code = none) : p.size = 0 := by
  simp [ParsedLine.size, ParsedLine.mnemonic?, h]

theorem size_of_mnemonic? {p : ParsedLine} {m : Mnemonic} (h : p.mnemonic? = some m) : p.size = m.size := by
  simp [ParsedLine.size, h]

@[simp] theorem addressBeforeLine_zero (lines : List Text) : addressBeforeLine lines 0 = 0 := by
  cases lines <;> rfl

@[simp] theorem addressBeforeLine_succ (line : Text) (lines : List Text) (n : Nat) :
    addressBeforeLine (line :: lines) (n + 1) = sizeOfLine line + addressBeforeLine lines n := rfl

/-! ### The record of a line (R61, R63, R78) -/

section LineRecord

variable {labels : LabelTable} {n cur : Nat} {raw : Text} {code : Text × Text} {record : Record}
  (h : lineRecord labels n cur raw code = .ok record)
include h

theorem lineRecord_lineNumber : record.lineNumber = n := by
  obtain ⟨-, rfl⟩ | ⟨m, _, ops, -, -, rfl⟩ := lineRecord_ok h
  · rfl
  · exact knownRecord_lineNumber ..

theorem lineRecord_raw : record.raw = raw := by
  obtain ⟨-, rfl⟩ | ⟨m, _, ops, -, -, rfl⟩ := lineRecord_ok h
  · rfl
  · exact knownRecord_raw ..

/-- A known mnemonic gives the record the running address, and an unknown one gives it none. -/
theorem lineRecord_address : record.address = (Mnemonic.ofText code.1).map fun _ => BitVec.ofNat 16 cur := by
  obtain ⟨hm, rfl⟩ | ⟨m, _, ops, hm, -, rfl⟩ := lineRecord_ok h
  · rw [hm]; rfl
  · rw [hm]; exact knownRecord_address ..

theorem lineRecord_error_of_unknown (hm : Mnemonic.ofText code.1 = none) : record.error = true := by
  obtain ⟨-, rfl⟩ | ⟨m, _, ops, hm', -, -⟩ := lineRecord_ok h
  · rfl
  · exact nomatch hm.symm.trans hm'

/-- An error record reports a non-empty message; any other record decodes to an instruction of the line's mnemonic,
since the operands that were read have its shape. -/
theorem lineRecord_decodes_or_reports :
    (record.error = true ∧ ∃ c rest, record.errorMessage = some (c :: rest)) ∨
      (record.error = false ∧ ∃ i, decodeRecord record = .ok (.known i) ∧
        Mnemonic.ofText code.1 = some i.mnemonic) := by
  obtain ⟨-, rfl⟩ | ⟨m, _, ops, hm, hread, rfl⟩ := lineRecord_ok h
  · exact .inl ⟨rfl, _, _, rfl⟩
  · cases ops with
    | none => exact .inl ⟨rfl, _, _, rfl⟩
    | some ops =>
      obtain ⟨i, hi, rfl, -⟩ := decodeRecord_of_fit (r := knownRecord m (some ops) (BitVec.ofNat 16 cur) raw n)
        rfl rfl (readOperands_fit hread)
      exact .inr ⟨rfl, i, hi, hm⟩

end LineRecord

/-! ### Pass 1 at one line (R66, R77) -/

/-- In an accepted source pass 1 comes to every line with the sum of the sizes before it, and goes on from there. -/
theorem pass1From_at {l : LabelTable} {line : Text} : ∀ {n cur : Nat} {labels : LabelTable} {lines : List Text},
    pass1From cur labels lines = .ok l → lines[n]? = some line →
    ∃ p before after next, parseLine line = .ok p ∧
      bindLabel p.label (cur + addressBeforeLine lines n) before = .ok after ∧
      nextAddress p (cur + addressBeforeLine lines n) = .ok next ∧
      pass1From next after (lines.drop (n + 1)) = .ok l := by
  intro n
  induction n with
  | zero =>
    intro cur labels lines h hline
    cases lines with
    | nil => exact nomatch hline
    | cons first lines =>
      cases hline
      obtain ⟨p, after, next, hp, hbind, hnext, hrest⟩ := pass1From_cons h
      exact ⟨p, labels, after, next, hp, by simpa using hbind, by simpa using hnext, hrest⟩
  | succ n ih =>
    intro cur labels lines h hline
    cases lines with
    | nil => exact nomatch hline
    | cons first lines =>
      obtain ⟨p, after, next, hp, -, hnext, hrest⟩ := pass1From_cons h
      obtain ⟨rfl, -⟩ := nextAddress_ok hnext
      simpa [sizeOfLine_of_parseLine hp, Nat.add_assoc] using ih hrest hline

theorem bindLabel_ok {label : Option Text} {cur : Nat} {labels labels' : LabelTable}
    (h : bindLabel label cur labels = .ok labels') :
    (label = none ∧ labels' = labels) ∨
      ∃ name, label = some name ∧ labels.find name = none ∧ cur < 0x10000 ∧
        labels' = labels ++ [(name, BitVec.ofNat 16 cur)] := by
  cases label with
  | none => exact .inl ⟨rfl, (Except.ok.inj h).symm⟩
  | some name =>
    simp only [bindLabel] at h
    split at h
    next => exact nomatch h
    next hfind =>
      split at h
      next => exact nomatch h
      next hcur => exact .inr ⟨name, rfl, by simpa using hfind, Nat.lt_of_not_le hcur, (Except.ok.inj h).symm⟩

/-- A label once bound keeps its address: later entries stand after it in the table. -/
theorem bindLabel_keeps {label : Option Text} {cur : Nat} {labels labels' : LabelTable} {x : Text} {a : Addr}
    (h : bindLabel label cur labels = .ok labels') (hx : labels.find x = some a) : labels'.find x = some a := by
  obtain ⟨-, rfl⟩ | ⟨name, -, -, -, rfl⟩ := bindLabel_ok h
  · exact hx
  · rw [find_append, hx]

theorem pass1From_keeps {l : LabelTable} {x : Text} {a : Addr} {lines : List Text} :
    ∀ {cur : Nat} {labels : LabelTable}, pass1From cur labels lines = .ok l → labels.find x = some a →
      l.find x = some a := by
  induction lines with
  | nil =>
    intro cur labels h hx
    cases h
    exact hx
  | cons line lines ih =>
    intro cur labels h hx
    obtain ⟨p, after, next, -, hbind, -, hrest⟩ := pass1From_cons h
    exact ih hrest (bindLabel_keeps hbind hx)

/-- R77: the table pass 1 gives holds every line's label at the sum of the sizes before the line. -/
theorem pass1_label {lines : List Text} {labels : LabelTable} (h : pass1 lines = .ok labels) {n : Nat}
    {line name : Text} {code : Option (Text × Text)} (hline : lines[n]? = some line)
    (hp : parseLine line = .ok { label := some name, code := code }) :
    labels.find name = some (BitVec.ofNat 16 (addressBeforeLine lines n)) ∧ addressBeforeLine lines n ≤ 0xFFFF := by
  obtain ⟨p, before, after, next, hp', hbind, -, hrest⟩ := pass1From_at h hline
  cases hp.symm.trans hp'
  rw [Nat.zero_add] at hbind
  obtain ⟨hnone, -⟩ | ⟨name', hname, hnew, hcur, rfl⟩ := bindLabel_ok hbind
  · exact nomatch hnone
  · cases hname
    exact ⟨pass1From_keeps hrest (by rw [find_append, hnew]; simp), Nat.le_of_lt_succ hcur⟩

/-- R68: in an accepted source the bytes of every line with a known mnemonic end within the 16-bit space. -/
theorem pass1_room {lines : List Text} {labels : LabelTable} (h : pass1 lines = .ok labels) {n : Nat} {line : Text}
    (hline : lines[n]? = some line) {m : Mnemonic} (hm : mnemonicOfLine line = some m) :
    addressBeforeLine lines n + m.size ≤ 0x10000 := by
  obtain ⟨p, before, after, next, hp, -, hnext, -⟩ := pass1From_at h hline
  rw [Nat.zero_add] at hnext
  exact (nextAddress_ok hnext).2 m (mnemonicOfLine_of_parseLine hp ▸ hm)

/-! ### Pass 2 at one line (R78) -/

/-- `r` is the record pass 2 makes of line `k` of `lines`, the first of which is line `n` at address `cur`. -/
def RecordOfLine (labels : LabelTable) (n cur : Nat) (lines : List Text) (k : Nat) (r : Record) : Prop :=
  ∃ line p code, lines[k]? = some line ∧ parseLine line = .ok p ∧ p.code = some code ∧
    lineRecord labels (n + k) (cur + addressBeforeLine lines k) line code = .ok r

theorem recordOfLine_succ {labels : LabelTable} {n cur : Nat} {line : Text} {lines : List Text} {p : ParsedLine}
    (hp : parseLine line = .ok p) {k : Nat} {r : Record} :
    RecordOfLine labels n cur (line :: lines) (k + 1) r ↔
      RecordOfLine labels (n + 1) (cur + p.size) lines k r := by
  simp [RecordOfLine, sizeOfLine_of_parseLine hp, Nat.add_assoc, Nat.add_comm 1]

theorem recordOfLine_zero {labels : LabelTable} {n cur : Nat} {line : Text} {lines : List Text} {p : ParsedLine}
    (hp : parseLine line = .ok p) {r : Record} :
    RecordOfLine labels n cur (line :: lines) 0 r ↔
      ∃ code, p.code = some code ∧ lineRecord labels n cur line code = .ok r := by
  simp [RecordOfLine, hp]

/-- The records of an accepted source are those of its lines. -/
theorem mem_pass2From {labels : LabelTable} {r : Record} {lines : List Text} : ∀ {n cur : Nat} {rs : List Record},
    pass2From labels n cur lines = .ok rs → (r ∈ rs ↔ ∃ k, RecordOfLine labels n cur lines k r) := by
  induction lines with
  | nil =>
    intro n cur rs h
    cases h
    simp [RecordOfLine]
  | cons line lines ih =>
    intro n cur rs h
    obtain ⟨p, hp, ⟨hcode, hrest⟩ | ⟨code, record, rs', hcode, hrecord, hrest, rfl⟩⟩ := pass2From_cons h
    · rw [← Nat.or_exists_add_one]
      simp [recordOfLine_zero hp, recordOfLine_succ hp, hcode, size_of_code_none hcode, ih hrest]
    · rw [← Nat.or_exists_add_one]
      simp [recordOfLine_zero hp, recordOfLine_succ hp, hcode, hrecord, ih hrest, eq_comm]

/-- Every line with a mnemonic token has a record. -/
theorem exists_recordOfLine {labels : LabelTable} {line : Text} {p : ParsedLine} (hp : parseLine line = .ok p)
    (hcode : p.code.isSome = true) {lines : List Text} : ∀ {n cur k : Nat} {rs : List Record},
      pass2From labels n cur lines = .ok rs → lines[k]? = some line → ∃ r, RecordOfLine labels n cur lines k r := by
  induction lines with
  | nil => exact fun _ hline => nomatch hline
  | cons first lines ih =>
    intro n cur k rs h hline
    obtain ⟨q, hq, hcases⟩ := pass2From_cons h
    cases k with
    | zero =>
      cases hline
      cases hp.symm.trans hq
      obtain ⟨hnone, -⟩ | ⟨code, record, -, hsome, hrecord, -⟩ := hcases
      · simp [hnone] at hcode
      · exact ⟨record, (recordOfLine_zero hp).2 ⟨code, hsome, hrecord⟩⟩
    | succ k =>
      simp only [recordOfLine_succ hq]
      obtain ⟨hnone, hrest⟩ | ⟨-, -, rs', -, -, hrest, -⟩ := hcases
      · exact size_of_code_none hnone ▸ ih hrest hline
      · exact ih hrest hline

/-- The records of a source that assembles, from the label table of its lines. -/
theorem assemble_records {source : Text} {rs : List Record} (h : assemble source = .ok rs) :
    ∃ labels, pass1 (sourceLines source) = .ok labels ∧
      (∀ r, r ∈ rs ↔ ∃ k, RecordOfLine labels 1 0 (sourceLines source) k r) ∧
      ∀ k line p, (sourceLines source)[k]? = some line → parseLine line = .ok p → p.code.isSome = true →
        ∃ r, RecordOfLine labels 1 0 (sourceLines source) k r := by
  obtain ⟨labels, h1, h2⟩ := assemble_ok h
  exact ⟨labels, h1, fun r => mem_pass2From h2, fun k line p hline hp hcode => exists_recordOfLine hp hcode h2 hline⟩

/-! ### The statements about one record -/

/-- Settles O57: every record is some line's. -/
theorem assembledRecordsDecodeOrReport : Obligations.AssembledRecordsDecodeOrReport := by
  intro source rs h r hr
  obtain ⟨labels, -, hrecords, -⟩ := assemble_records h
  obtain ⟨k, line, p, code, -, -, -, hrecord⟩ := (hrecords r).1 hr
  exact (lineRecord_decodes_or_reports hrecord).imp id fun ⟨he, i, hi, _⟩ => ⟨he, i, hi⟩

/-- Settles O55: the record is of the line its line number names, where the running address is the sum of the sizes
before; pass 1 has found room for it. -/
theorem assembledAddresses : Obligations.AssembledAddresses := by
  intro source rs h r hr
  obtain ⟨labels, h1, hrecords, -⟩ := assemble_records h
  obtain ⟨k, line, p, code, hline, hp, hcode, hrecord⟩ := (hrecords r).1 hr
  rw [Nat.zero_add] at hrecord
  have hmnemonic : mnemonicOfLine line = Mnemonic.ofText code.1 :=
    (mnemonicOfLine_of_parseLine hp).trans (mnemonic?_of_code hcode)
  refine ⟨k, line, (lineRecord_lineNumber hrecord).trans (Nat.add_comm 1 k), hline, fun m hm => ⟨?_, ?_⟩, fun hm => ?_⟩
  · rw [lineRecord_address hrecord, ← hmnemonic, hm]
    rfl
  · exact pass1_room h1 hline hm
  · rw [hmnemonic] at hm
    exact ⟨lineRecord_error_of_unknown hrecord hm, by rw [lineRecord_address hrecord, hm]; rfl⟩

/-- A known label in an address position is the one operand read (R73). -/
theorem readOperands_label {labels : LabelTable} {name : Text} {a : Addr} {ops : Option (List Operand)}
    (hname : labels.find name = some a) (h : readOperands labels [.addr16] [name] = .ok ops) :
    ops = some [.num a.toNat] := by
  cases hread : readOperand labels .addr16 name with
  | error e => simp [readOperands, hread] at h
  | ok o =>
    obtain rfl := readOperand_label hname hread
    simpa [readOperands, hread, eq_comm] using h

/-- A known label as the one operand of a mnemonic that takes an address gives the instruction with its address. -/
theorem lineRecord_label {labels : LabelTable} {n cur : Nat} {raw name text : Text} {m : Mnemonic} {a : Addr}
    {record : Record} (hkinds : m.operandKinds = [.addr16]) (htokens : splitOperands text = .ok [name])
    (hname : labels.find name = some a) (h : lineRecord labels n cur raw (m.text, text) = .ok record) :
    record.error = false ∧
      ∃ i, decodeRecord record = .ok (.known i) ∧ i.mnemonic = m ∧ i.operands = [.num a.toNat] := by
  simp only [lineRecord, htokens, ofText_text] at h
  obtain ⟨ops, hops, rfl⟩ := exists_of_map_eq_ok h
  obtain rfl := readOperands_label hname (hkinds ▸ hops)
  exact ⟨rfl, decodeRecord_of_fit rfl rfl (readOperands_fit hops)⟩

/-- Settles O59: pass 1 binds the label, and pass 2 reads the operand from that table wherever the line stands. -/
theorem labelsPointAtTheirLines : Obligations.LabelsPointAtTheirLines := by
  refine ⟨fun lines labels h n line name code hline hp => pass1_label h hline hp, ?_⟩
  intro source rs h n line name code hline hp k user label m text huser hpuser hkinds htokens
  obtain ⟨labels, h1, hrecords, hall⟩ := assemble_records h
  obtain ⟨hname, hle⟩ := pass1_label h1 hline hp
  obtain ⟨r, hr⟩ := hall k user _ huser hpuser rfl
  refine ⟨r, (hrecords r).2 ⟨k, hr⟩, ?_⟩
  obtain ⟨user', p, code, huser', hpuser', hcode, hrecord⟩ := hr
  cases huser.symm.trans huser'
  cases hpuser.symm.trans hpuser'
  cases hcode
  have haddr : (BitVec.ofNat 16 (addressBeforeLine (sourceLines source) n)).toNat =
      addressBeforeLine (sourceLines source) n := Nat.mod_eq_of_lt (Nat.lt_succ_of_le hle)
  rw [← haddr]
  exact ⟨(lineRecord_lineNumber hrecord).trans (Nat.add_comm 1 k), lineRecord_label hkinds htokens hname hrecord⟩

/-! ### The statements about the order of the records -/

/-- R80: a record ends where the next line's running address is, and a line without one adds nothing. -/
theorem laidOutFrom_of_passes {labels l : LabelTable} {lines : List Text} :
    ∀ {n cur : Nat} {start : LabelTable} {rs : List Record}, pass1From cur start lines = .ok l →
      pass2From labels n cur lines = .ok rs → noErrorRecord rs = true → laidOutFrom cur rs = true := by
  induction lines with
  | nil =>
    intro n cur start rs _ h2 _
    cases h2
    rfl
  | cons line lines ih =>
    intro n cur start rs h1 h2 hclean
    obtain ⟨p, start', cur', hp, -, hnext, h1⟩ := pass1From_cons h1
    obtain ⟨rfl, hroom⟩ := nextAddress_ok hnext
    obtain ⟨p', hp', ⟨hcode, h2⟩ | ⟨code, record, rs', hcode, hrecord, h2, rfl⟩⟩ := pass2From_cons h2 <;>
      cases hp.symm.trans hp'
    · rw [size_of_code_none hcode] at h1
      exact ih h1 h2 hclean
    · obtain ⟨hrecordClean, hrest⟩ : record.error = false ∧ noErrorRecord rs' = true := by
        simpa [noErrorRecord] using hclean
      obtain ⟨herror, -⟩ | ⟨-, i, hi, hm⟩ := lineRecord_decodes_or_reports hrecord
      · exact Bool.noConfusion (hrecordClean.symm.trans herror)
      · have hmnemonic : p.mnemonic? = some i.mnemonic := (mnemonic?_of_code hcode).trans hm
        have haddr : record.address = some (BitVec.ofNat 16 cur) := by rw [lineRecord_address hrecord, hm]; rfl
        have hsize : i.size = p.size := (size_of_mnemonic? hmnemonic).symm
        have hend : cur + p.size ≤ 0x10000 := hsize ▸ hroom _ hmnemonic
        simp [laidOutFrom, hi, haddr, hsize, hend, ih h1 h2 hrest]

/-- Settles O56: both passes run from address 0. -/
theorem assembledProgramLaidOut : Obligations.AssembledProgramLaidOut := by
  intro source rs h hclean
  obtain ⟨labels, h1, h2⟩ := assemble_ok h
  exact laidOutFrom_of_passes h1 h2 hclean

/-- R81: pass 2 gives one record per line with a mnemonic token, in the order of the lines. -/
theorem pass2From_lines {labels : LabelTable} {lines : List Text} : ∀ {n cur : Nat} {rs : List Record},
    pass2From labels n cur lines = .ok rs → rs.map (fun r => (r.lineNumber, r.raw)) = numberedCodeLines n lines := by
  induction lines with
  | nil =>
    intro n cur rs h
    cases h
    rfl
  | cons line lines ih =>
    intro n cur rs h
    obtain ⟨p, hp, ⟨hcode, hrest⟩ | ⟨code, record, rs', hcode, hrecord, hrest, rfl⟩⟩ := pass2From_cons h
    · simp [numberedCodeLines, carriesMnemonic_of_parseLine hp, hcode, ih hrest]
    · simp [numberedCodeLines, carriesMnemonic_of_parseLine hp, hcode, ih hrest, lineRecord_lineNumber hrecord,
        lineRecord_raw hrecord]

/-- Settles O58: pass 2 counts its lines from 1. -/
theorem rawRoundTrip : Obligations.RawRoundTrip := by
  intro source rs h
  obtain ⟨labels, -, h2⟩ := assemble_ok h
  exact pass2From_lines h2

end Sys2Proof.Machine
end

section
/-! PROOFS of the statements on text (30_encoding.md sections 3 and 4): lines that produce nothing, and the one-line
source of an instruction, read back piece by piece. -/

namespace Sys2Proof.Machine

/-! ### Whitespace, comments and control characters (R69) -/

theorem isWhite_iff {c : Char} : isWhite c = true ↔ c = ' ' ∨ c = '\t' := by simp [isWhite]

theorem trim_white {t : Text} (h : ∀ c ∈ t, isWhite c = true) : trim t = [] := by
  have hleft : trimLeft t = [] := List.dropWhile_eq_nil_iff.2 h
  rw [trim, hleft]
  rfl

theorem any_control_eq_false {line : Text} (h : ∀ c ∈ line, isControl c = false ∨ c = '\t') :
    (line.any fun c => isControl c && c != '\t') = false := by
  refine List.any_eq_false.2 fun c hc => ?_
  obtain hc | rfl := h c hc
  · simp [hc]
  · simp

/-- A line without a control character whose part before a comment is whitespace has neither label nor mnemonic. -/
theorem parseLine_blank {line : Text} (hcontrol : ∀ c ∈ line, isControl c = false ∨ c = '\t')
    (hwhite : ∀ c ∈ line.takeWhile fun c => c != ';', isWhite c = true) :
    parseLine line = .ok { label := none, code := none } := by
  simp [parseLine, any_control_eq_false hcontrol, trim_white hwhite]

theorem takeWhile_of_no_semicolon {t : Text} (h : ∀ c ∈ t, c ≠ ';') (rest : Text) :
    ((t ++ ';' :: rest).takeWhile fun c => c != ';') = t := by
  rw [List.takeWhile_append_of_pos (by simpa using h)]
  simp

/-- Settles O60: whitespace is neither a control character other than tab nor a semicolon. -/
theorem blankAndCommentLines : Obligations.BlankAndCommentLines := by
  intro white comment hwhite hcomment
  have hcontrol : ∀ c ∈ white, isControl c = false ∨ c = '\t' := by
    intro c hc
    obtain rfl | rfl := isWhite_iff.1 (hwhite c hc)
    · exact .inl rfl
    · exact .inr rfl
  have hsemi : ∀ c ∈ white, c ≠ ';' := by
    rintro c hc rfl
    exact nomatch hwhite _ hc
  refine ⟨parseLine_blank hcontrol fun c hc => hwhite c ((List.takeWhile_sublist _).subset hc), parseLine_blank ?_ ?_⟩
  · intro c hc
    obtain hc | rfl | hc : c ∈ white ∨ c = ';' ∨ c ∈ comment := by simpa using hc
    · exact hcontrol c hc
    · exact .inl rfl
    · exact hcomment c hc
  · rwa [takeWhile_of_no_semicolon hsemi]

/-! ### The characters of a source line as `Instr.source` writes it -/

/-- A digit or an upper-case letter: what names and literals are written with. -/
def isPlain (c : Char) : Bool := isDecimal c || (decide (65 ≤ c.toNat) && decide (c.toNat ≤ 90))

/-- What a source line is written with: names and literals, and the two separators. -/
def isSourceChar (c : Char) : Bool := isPlain c || c == ',' || c == ' '

/-- A class of characters tells a character in it from one that is not. -/
theorem char_ne_of_class {p : Char → Bool} {c d : Char} (h : p c = true) (hd : p d = false) : c ≠ d := by
  rintro rfl
  exact Bool.noConfusion (h.symm.trans hd)

theorem isWhite_of_isPlain {c : Char} (h : isPlain c = true) : isWhite c = false := by
  simp [isWhite, char_ne_of_class h (d := ' ') (by decide), char_ne_of_class h (d := '\t') (by decide)]

theorem isControl_of_isPlain {c : Char} (h : isPlain c = true) : isControl c = false := by
  simp [isPlain, isDecimal, isControl] at h ⊢
  omega

theorem isControl_of_isSourceChar {c : Char} (h : isSourceChar c = true) : isControl c = false := by
  obtain (h | rfl) | rfl : (isPlain c = true ∨ c = ',') ∨ c = ' ' := by simpa [isSourceChar] using h
  · exact isControl_of_isPlain h
  · rfl
  · rfl

/-! ### Names and literals -/

/-- A non-empty text of plain characters. -/
structure PlainText (t : Text) : Prop where
  ne_nil : t ≠ []
  isPlain_of_mem : ∀ c ∈ t, isPlain c = true

theorem PlainText.isWhite_of_mem {t : Text} (h : PlainText t) {c : Char} (hc : c ∈ t) : isWhite c = false :=
  isWhite_of_isPlain (h.isPlain_of_mem c hc)

theorem plainText_mnemonic (m : Mnemonic) : PlainText m.text := by
  cases m <;> exact ⟨List.cons_ne_nil _ _, List.all_eq_true.1 rfl⟩

theorem plainText_reg (r : Reg) : PlainText r.text := by
  cases r <;> exact ⟨List.cons_ne_nil _ _, List.all_eq_true.1 rfl⟩

theorem isPlain_hexDigit : ∀ n < 16, isPlain (hexDigit n) = true := by decide

theorem isHexDigit_hexDigit {n : Nat} (h : n < 16) : isHexDigit (hexDigit n) = true := by
  rw [isHexDigit, hexValue_hexDigit n h]
  rfl

theorem exists_hexDigit_of_mem_hex2 {v : Byte} {c : Char} (h : c ∈ hex2 v) : ∃ n < 16, c = hexDigit n := by
  have := v.isLt
  simp only [hex2, List.mem_cons, List.not_mem_nil, or_false] at h
  obtain rfl | rfl := h
  all_goals exact ⟨_, by omega, rfl⟩

theorem exists_hexDigit_of_mem_hex4 {a : Addr} {c : Char} (h : c ∈ hex4 a) : ∃ n < 16, c = hexDigit n := by
  have := a.isLt
  simp only [hex4, List.mem_cons, List.not_mem_nil, or_false] at h
  obtain rfl | rfl | rfl | rfl := h
  all_goals exact ⟨_, by omega, rfl⟩

/-- The two digits of a byte, read as base 16, are the byte. -/
theorem hexNumber_hex2 (v : Byte) : hexNumber (hex2 v) = v.toNat := by
  have h1 : v.toNat / 16 < 16 := by omega
  have h0 : v.toNat % 16 < 16 := Nat.mod_lt _ (by decide)
  simp only [hexNumber, hex2, hexNumberFrom, hexValue_hexDigit _ h1, hexValue_hexDigit _ h0, Option.getD_some]
  omega

theorem plainText_literal {digits : Text} (h : ∀ c ∈ digits, ∃ n < 16, c = hexDigit n) :
    PlainText (digits ++ ['H']) := by
  refine ⟨by simp, fun c hc => ?_⟩
  obtain hc | rfl : c ∈ digits ∨ c = 'H' := by simpa using hc
  · obtain ⟨n, hn, rfl⟩ := h c hc
    exact isPlain_hexDigit n hn
  · rfl

theorem parseHex_literal {digits : Text} {n max : Nat} (hne : digits ≠ [])
    (h : ∀ c ∈ digits, ∃ n < 16, c = hexDigit n) (hn : hexNumber digits = n) (hmax : n ≤ max) :
    parseHex (digits ++ ['H']) max = .ok (some n) := by
  refine parseHex_suffix hne (fun c hc => ?_) hn hmax
  obtain ⟨n, hn, rfl⟩ := h c hc
  exact isHexDigit_hexDigit hn

/-! ### An instruction's operand tokens -/

/-- The operands as `Instr.source` writes them. -/
def instrTokens : Instr → List Text
  | .mvi r v => [r.text, hex2 v ++ ['H']]
  | .mov rd rs => [rd.text, rs.text]
  | .lda a => [hex4 a ++ ['H']]
  | .sta a => [hex4 a ++ ['H']]
  | .add r => [r.text]
  | .adi v => [hex2 v ++ ['H']]
  | .sub r => [r.text]
  | .sui v => [hex2 v ++ ['H']]
  | .jmp a => [hex4 a ++ ['H']]
  | .cma => []
  | .hlt => []

/-- What follows the mnemonic on a line with these operand tokens: a space, and the tokens between commas. -/
def operandTail : List Text → Text
  | [] => []
  | t :: ts => ' ' :: [','].intercalate (t :: ts)

theorem source_eq (i : Instr) : i.source = i.mnemonic.text ++ operandTail (instrTokens i) := by
  cases i with
  | mvi | mov => simp [Instr.source, instrTokens, operandTail]
  | lda | sta | add | adi | sub | sui | jmp => simp [Instr.source, instrTokens, operandTail]
  | cma | hlt => rfl

theorem plainText_instrTokens (i : Instr) : ∀ t ∈ instrTokens i, PlainText t := by
  have hbyte (v : Byte) : PlainText (hex2 v ++ ['H']) := plainText_literal fun _ => exists_hexDigit_of_mem_hex2
  have haddr (a : Addr) : PlainText (hex4 a ++ ['H']) := plainText_literal fun _ => exists_hexDigit_of_mem_hex4
  cases i <;> simp [instrTokens, plainText_reg, hbyte, haddr]

theorem readOperand_reg (labels : LabelTable) (r : Reg) : readOperand labels .reg r.text = .ok (some (.reg r)) := by
  cases r <;> rfl

theorem readOperand_byte (labels : LabelTable) (v : Byte) :
    readOperand labels .imm8 (hex2 v ++ ['H']) = .ok (some (.num v.toNat)) := by
  have hparse : parseHex (hex2 v ++ ['H']) Config.maxImm8 = .ok (some v.toNat) :=
    parseHex_literal (List.cons_ne_nil _ _) (fun _ => exists_hexDigit_of_mem_hex2) (hexNumber_hex2 v)
      (Nat.le_of_lt_succ v.isLt)
  rw [readOperand, hparse]
  rfl

/-- In a source without labels an address is read as its literal. -/
theorem readOperand_addr (a : Addr) : readOperand [] .addr16 (hex4 a ++ ['H']) = .ok (some (.num a.toNat)) := by
  have hparse : parseAddr [] (hex4 a ++ ['H']) = .ok (some a.toNat) :=
    parseHex_literal (List.cons_ne_nil _ _) (fun _ => exists_hexDigit_of_mem_hex4) (hexNumber_hex4 a)
      (Nat.le_of_lt_succ a.isLt)
  rw [readOperand, hparse]
  rfl

theorem readOperands_instrTokens (i : Instr) :
    readOperands [] i.mnemonic.operandKinds (instrTokens i) = .ok (some i.operands) := by
  cases i <;> simp [instrTokens, Instr.mnemonic, Mnemonic.operandKinds, Instr.operands, readOperands, readOperand_reg,
    readOperand_byte, readOperand_addr]

/-! ### Text that trimming leaves as it is -/

/-- Text that begins and ends with a character other than whitespace. -/
structure Trimmed (t : Text) : Prop where
  begins : ∃ c, t.head? = some c ∧ isWhite c = false
  ends : ∃ c, t.getLast? = some c ∧ isWhite c = false

theorem Trimmed.trim_eq {t : Text} (h : Trimmed t) : trim t = t := by
  obtain ⟨⟨b, hb, hbw⟩, e, he, hew⟩ := h
  refine trim_eq_self (fun c hc => ?_) fun c hc => ?_
  · cases hb.symm.trans hc
    exact hbw
  · cases he.symm.trans hc
    exact hew

theorem Trimmed.append {x y : Text} (hx : Trimmed x) (z : Text) (hy : Trimmed y) : Trimmed (x ++ z ++ y) := by
  obtain ⟨⟨b, hb, hbw⟩, -⟩ := hx
  obtain ⟨-, e, he, hew⟩ := hy
  exact ⟨⟨b, by simp [List.head?_append, hb], hbw⟩, e, by simp [List.getLast?_append, he], hew⟩

theorem Trimmed.ne_nil {t : Text} (h : Trimmed t) : t ≠ [] := by
  rintro rfl
  obtain ⟨⟨_, hb, _⟩, -⟩ := h
  exact nomatch hb

theorem PlainText.trimmed {t : Text} (h : PlainText t) : Trimmed t :=
  ⟨⟨t.head h.ne_nil, List.head?_eq_some_head h.ne_nil, h.isWhite_of_mem (List.head_mem _)⟩,
    t.getLast h.ne_nil, List.getLast?_eq_some_getLast h.ne_nil, h.isWhite_of_mem (List.getLast_mem _)⟩

/-! ### Tokens between commas (R74) -/

theorem splitAtChar_eq_splitOn (sep : Char) (t : Text) : splitAtChar sep t = t.splitOn sep := by
  induction t with
  | nil => rfl
  | cons c cs ih =>
    rw [List.splitOn_cons_eq_if_modifyHead, splitAtChar, ih]
    cases h : cs.splitOn sep with
    | nil => exact absurd h (List.splitOn_ne_nil _ _)
    | cons piece pieces => rfl

theorem PlainText.splitWhite_eq {t : Text} (h : PlainText t) : splitWhite t = [t] :=
  splitWhiteFrom_plain (fun _ => h.isWhite_of_mem) [] (.inr h.ne_nil)

/-- The mnemonic ends where the line does, or at the space before the operands. -/
theorem takeWhile_dropWhile_line (m : Mnemonic) (ts : List Text) :
    ((m.text ++ operandTail ts).takeWhile fun c => !isWhite c) = m.text ∧
      ((m.text ++ operandTail ts).dropWhile fun c => !isWhite c) = operandTail ts := by
  have hm : ∀ c ∈ m.text, (!isWhite c) = true := fun c hc => by simp [(plainText_mnemonic m).isWhite_of_mem hc]
  rw [List.takeWhile_append_of_pos hm, List.dropWhile_append_of_pos hm]
  cases ts <;> simp [operandTail, isWhite]

section Tokens

variable {ts : List Text} (h : ∀ t ∈ ts, PlainText t)
include h

theorem trimmed_intercalate (hne : ts ≠ []) : Trimmed ([','].intercalate ts) := by
  induction ts with
  | nil => exact absurd rfl hne
  | cons t us ih =>
    obtain ⟨ht, hus⟩ := List.forall_mem_cons.1 h
    cases us with
    | nil => simpa using ht.trimmed
    | cons u us =>
      rw [List.intercalate_cons_cons]
      exact ht.trimmed.append _ (ih hus (List.cons_ne_nil _ _))

theorem trim_intercalate : trim ([','].intercalate ts) = [','].intercalate ts := by
  by_cases hne : ts = []
  · rw [hne]
    rfl
  · exact (trimmed_intercalate h hne).trim_eq

theorem isSourceChar_of_mem_intercalate : ∀ c ∈ [','].intercalate ts, isSourceChar c = true := by
  have hplain {t : Text} (ht : PlainText t) : ∀ c ∈ t, isSourceChar c = true := fun c hc => by
    simp [isSourceChar, ht.isPlain_of_mem c hc]
  induction ts with
  | nil => simp
  | cons t us ih =>
    obtain ⟨ht, hus⟩ := List.forall_mem_cons.1 h
    cases us with
    | nil => simpa using hplain ht
    | cons u us =>
      rw [List.intercalate_cons_cons, List.forall_mem_append, List.forall_mem_append]
      exact ⟨⟨hplain ht, List.forall_mem_singleton.2 rfl⟩, ih hus⟩

/-- R74: tokens written between commas are read one by one. -/
theorem splitOperands_intercalate : splitOperands ([','].intercalate ts) = .ok ts := by
  by_cases hne : ts = []
  · rw [hne]
    rfl
  have hnonempty : [','].intercalate ts ≠ [] := (trimmed_intercalate h hne).ne_nil
  have hcomma : ∀ t ∈ ts, ',' ∉ t := fun t ht hc => char_ne_of_class ((h t ht).isPlain_of_mem _ hc) (by decide) rfl
  have hsplit : (splitAtChar ',' ([','].intercalate ts)).map trim = ts := by
    rw [splitAtChar_eq_splitOn, List.splitOn_intercalate _ hcomma hne]
    exact (List.map_congr_left fun t ht => (h t ht).trimmed.trim_eq).trans (List.map_id _)
  have hempty : (ts.any (·.isEmpty)) = false := by
    simpa using fun t ht => (h t ht).ne_nil
  have hwhite : ts.flatMap splitWhite = ts :=
    (List.flatMap_congr fun t ht => (h t ht).splitWhite_eq).trans (List.flatMap_singleton' _)
  simp [splitOperands, hnonempty, hsplit, hempty, hwhite]

/-! ### A source line taken apart (R69, R75) -/

theorem trim_operandTail : trim (operandTail ts) = [','].intercalate ts := by
  cases ts with
  | nil => rfl
  | cons t us => exact trim_intercalate h

theorem isSourceChar_of_mem_operandTail : ∀ c ∈ operandTail ts, isSourceChar c = true := by
  cases ts with
  | nil => simp [operandTail]
  | cons t us => exact List.forall_mem_cons.2 ⟨rfl, isSourceChar_of_mem_intercalate h⟩

theorem isSourceChar_of_mem_line (m : Mnemonic) : ∀ c ∈ m.text ++ operandTail ts, isSourceChar c = true := by
  refine List.forall_mem_append.2 ⟨fun c hc => ?_, isSourceChar_of_mem_operandTail h⟩
  simp [isSourceChar, (plainText_mnemonic m).isPlain_of_mem c hc]

theorem trimmed_line (m : Mnemonic) : Trimmed (m.text ++ operandTail ts) := by
  have hm := (plainText_mnemonic m).trimmed
  cases ts with
  | nil => simpa [operandTail] using hm
  | cons t us => simpa [operandTail] using hm.append [' '] (trimmed_intercalate h (List.cons_ne_nil _ _))

theorem parseCode_line (m : Mnemonic) :
    parseCode (m.text ++ operandTail ts) = .ok (m.text, [','].intercalate ts) := by
  obtain ⟨htake, hdrop⟩ := takeWhile_dropWhile_line m ts
  have hcomma : ',' ∉ m.text := fun hc => char_ne_of_class ((plainText_mnemonic m).isPlain_of_mem _ hc) (by decide) rfl
  simp [parseCode, htake, hdrop, trim_operandTail h, hcomma, ofText_text]

theorem parseLine_line (m : Mnemonic) :
    parseLine (m.text ++ operandTail ts) =
      .ok { label := none, code := some (m.text, [','].intercalate ts) } := by
  have hchar := isSourceChar_of_mem_line h m
  have hline := trimmed_line h m
  have hcode := parseCode_line h m
  generalize m.text ++ operandTail ts = line at hchar hline hcode
  have hcontrol := any_control_eq_false fun c hc => .inl (isControl_of_isSourceChar (hchar c hc))
  have hcomment : (line.takeWhile fun c => c != ';') = line :=
    List.takeWhile_eq_self_iff.2 fun c hc => bne_iff_ne.2 (char_ne_of_class (hchar c hc) (by decide))
  have hcolon : ':' ∉ line := fun hc => char_ne_of_class (hchar _ hc) (by decide) rfl
  simp [parseLine, hcontrol, hcomment, hline.trim_eq, hline.ne_nil, parseBody, hcolon, parsePart, hcode, Except.map]

theorem sourceLines_line (m : Mnemonic) : sourceLines (m.text ++ operandTail ts) = [m.text ++ operandTail ts] := by
  have hchar := isSourceChar_of_mem_line h m
  generalize m.text ++ operandTail ts = line at hchar
  have hfeed : ∀ c ∈ line, (c == '\n') = false := fun c hc =>
    beq_eq_false_iff_ne.2 (char_ne_of_class (hchar c hc) (by decide))
  have hreturn : line.getLast? ≠ some '\r' := fun hc =>
    char_ne_of_class (hchar _ (List.mem_of_getLast? hc)) (by decide) rfl
  simp [sourceLines, splitAtChar_plain hfeed, dropReturn, hreturn]

end Tokens

/-! ### Both passes on one line -/

/-- Every instruction has room at address 0. -/
theorem nextAddress_zero (p : ParsedLine) : nextAddress p 0 = .ok p.size := by
  have hsize : p.size ≤ 3 := by
    rw [ParsedLine.size]
    cases p.mnemonic? with
    | none => exact Nat.zero_le 3
    | some m => cases m <;> decide
  simp [nextAddress, Config.addressSpaceSize]
  omega

/-- A source of one line with a known mnemonic and no label, whose operands are read, is one record (R77, R78). -/
theorem assemble_oneLine {source text : Text} {m : Mnemonic} {tokens : List Text} {ops : List Operand}
    (hline : sourceLines source = [source])
    (hparse : parseLine source = .ok { label := none, code := some (m.text, text) })
    (htokens : splitOperands text = .ok tokens) (hread : readOperands [] m.operandKinds tokens = .ok (some ops)) :
    assemble source = .ok [knownRecord m (some ops) 0x0000 source 1] := by
  have hpass1 : pass1 [source] = .ok [] := by
    simp [pass1, pass1From, hparse, bindLabel, nextAddress_zero]
  have hrecord : lineRecord [] 1 0 source (m.text, text) = .ok (knownRecord m (some ops) 0x0000 source 1) := by
    simp [lineRecord, htokens, ofText_text, hread, Except.map]
  simp [assemble, hline, hpass1, pass2, pass2From, hparse, hrecord, Except.map]

/-- Settles O54: the line is taken apart into the mnemonic and the tokens it was written from, and these are read as
the instruction's operands. -/
theorem assembleSourceLine : Obligations.AssembleSourceLine := by
  intro i
  have htokens := plainText_instrTokens i
  have h := assemble_oneLine (sourceLines_line htokens i.mnemonic) (parseLine_line htokens _)
    (splitOperands_intercalate htokens) (readOperands_instrTokens i)
  rw [← source_eq] at h
  exact h

end Sys2Proof.Machine
end

section
/-! PROOFS of the statements on the executor (40_executor.md). First one equation per way a step of a run can begin and
one lemma for the four ways it can end, then the statements on single steps. -/

namespace Sys2Proof.Machine

/-! ### A step of a run: one equation per case (R112) -/

/-- Past the end of the program the engine auto-halts and the run returns. -/
theorem step_pastEnd {s : State} {run : RunLoop} (hl : s.loop = some run) (hp : run.prog[run.idx]? = none) :
    step s = .next (State.leaveRun { s with cpu := s.cpu.halt } (some run.idx)) := by
  simp [step_inFlight hl, stepLoop, runStep, hp, applyLoopResult]

/-- A record that decodes is executed, and the loop goes on or the run returns. -/
theorem step_record {s : State} {run : RunLoop} {record : Record} {d : Decoded} (hl : s.loop = some run)
    (hp : run.prog[run.idx]? = some record) (hd : decodeRecord record = .ok d) :
    step s = onNext (execDecoded d s) fun u => applyLoopResult run.prog (afterStep run.prog run.idx d u) := by
  obtain ⟨u, hu⟩ := execDecoded_completes d s
  simp [step_inFlight hl, stepLoop, runStep, hp, hd, hu]

theorem step_undecoded {s : State} {run : RunLoop} {record : Record} {e : RecordRefusal} (hl : s.loop = some run)
    (hp : run.prog[run.idx]? = some record) (hd : decodeRecord record = .error e) :
    step s = .refused (refusalOf e) := by
  simp [step_inFlight hl, stepLoop, runStep_undecoded hp hd]

/-- The host's `executeInstruction` call on a record that decodes. -/
theorem step_executeCall {s : State} {record : Record} {d : Decoded} {rest : List HostCall} (hl : s.loop = none)
    (hc : s.calls = .executeInstruction record :: rest) (hd : decodeRecord record = .ok d) :
    step s = onNext (execDecoded d { s with calls := rest }) State.answerOutcome := by
  simp [step_call hl hc, performCall, callExecute, executeInstruction, hd]

/-! ### What executing a decoded record does -/

theorem execDecoded_halted_eq (d : Decoded) {s : State} (h : s.cpu.halted = true) :
    execDecoded d s = .next (s.notExecuted haltedMessage) := by
  cases d with
  | known i => exact exec_halted i h
  | unknown name => exact executeUnknown_halted h name

/-- A known instruction executed on a ready engine has its effect. -/
theorem execDecoded_known_cpu {i : Instr} {s u : State} (hready : s.Ready) (hu : execDecoded (.known i) s = .next u) :
    u.cpu = effectOf i s.cpu := by
  cases (exec_ready i hready).symm.trans hu
  rfl

theorem execDecoded_running {d : Decoded} {s u : State} (hu : execDecoded d s = .next u) :
    u.cpu.running = s.cpu.running := by
  obtain h | ⟨-, i, -, h⟩ := execDecoded_cpu hu
  · rw [h]
  · rw [h, effectOf_running]

/-- An engine that is ready after a record was ready before it. -/
theorem ready_of_execDecoded_ready {d : Decoded} {s u : State} (hu : execDecoded d s = .next u) (hready : u.Ready) :
    s.Ready ∧ d ≠ .known .hlt := by
  simpa using (execDecoded_halted hu).symm.trans hready

/-! ### The four ways an iteration ends (R113, R114) -/

theorem applyLoopResult_of_halted {u : State} (h : u.cpu.halted = true) (prog : List Record) (idx : Nat) (d : Decoded) :
    applyLoopResult prog (afterStep prog idx d u) = u.leaveRun (some idx) := by
  simp [afterStep, h, applyLoopResult]

theorem applyLoopResult_jmp_found {u : State} (h : u.Ready) {prog : List Record} {addr : Addr} {j : Nat}
    (hj : lookupAddress addr prog = some j) (idx : Nat) :
    applyLoopResult prog (afterStep prog idx (.known (.jmp addr)) u) = { u with loop := some ⟨prog, j⟩ } := by
  simp [afterStep, h, applyLoopResult, nextIndex, hj]

theorem applyLoopResult_jmp_notFound {u : State} (h : u.Ready) {prog : List Record} {addr : Addr}
    (hj : lookupAddress addr prog = none) (idx : Nat) :
    applyLoopResult prog (afterStep prog idx (.known (.jmp addr)) u) = u.leaveRun none := by
  simp [afterStep, h, applyLoopResult, nextIndex, hj]

theorem applyLoopResult_moves_on {u : State} (h : u.Ready) (prog : List Record) (idx : Nat) {d : Decoded}
    (hd : ∀ addr, d ≠ .known (.jmp addr)) :
    applyLoopResult prog (afterStep prog idx d u) = { u with loop := some ⟨prog, idx + 1⟩ } := by
  obtain ⟨addr, hj, -⟩ | ⟨-, hnext⟩ := nextIndex_cases prog idx d
  · exact absurd hj (hd addr)
  · simp [afterStep, h, applyLoopResult, hnext]

/-- All an iteration can answer after the record was executed: on a halted engine the return, after `JMP` the target's
index or the return without one, and the next index after anything else. -/
theorem applyLoopResult_afterStep_cases (prog : List Record) (idx : Nat) (d : Decoded) (u : State) {t : State}
    (ht : t = applyLoopResult prog (afterStep prog idx d u)) :
    (u.cpu.halted = true ∧ t = u.leaveRun (some idx)) ∨
      (u.Ready ∧ ∃ addr, d = .known (.jmp addr) ∧ lookupAddress addr prog = none ∧ t = u.leaveRun none) ∨
      (u.Ready ∧ ∃ j, t = { u with loop := some ⟨prog, j⟩ } ∧
        ((∃ addr, d = .known (.jmp addr) ∧ lookupAddress addr prog = some j) ∨
          (∀ addr, d ≠ .known (.jmp addr)) ∧ j = idx + 1)) := by
  by_cases hh : u.cpu.halted = true
  · exact .inl ⟨hh, ht.trans (applyLoopResult_of_halted hh ..)⟩
  have hready : u.Ready := by simpa using hh
  obtain ⟨addr, rfl, -⟩ | ⟨hd, -⟩ := nextIndex_cases prog idx d
  · cases hj : lookupAddress addr prog with
    | none => exact .inr (.inl ⟨hready, addr, rfl, hj, ht.trans (applyLoopResult_jmp_notFound hready hj idx)⟩)
    | some j => exact .inr (.inr ⟨hready, j, ht.trans (applyLoopResult_jmp_found hready hj idx), .inl ⟨addr, rfl, hj⟩⟩)
  · exact .inr (.inr ⟨hready, idx + 1, ht.trans (applyLoopResult_moves_on hready prog idx hd), .inr ⟨hd, rfl⟩⟩)

/-- A step after which the run goes on executed a record on an engine that was ready and is ready, and then only the
index moved. -/
theorem step_goes_on {s t : State} {run run' : RunLoop} (hl : s.loop = some run) (h : step s = .next t)
    (hl' : t.loop = some run') :
    s.Ready ∧ run'.prog = run.prog ∧ ∃ record d u, run.prog[run.idx]? = some record ∧ decodeRecord record = .ok d ∧
      execDecoded d s = .next u ∧ u.Ready ∧ t = { u with loop := some run' } ∧
      ((∃ addr, d = .known (.jmp addr) ∧ lookupAddress addr run.prog = some run'.idx) ∨
        (∀ addr, d ≠ .known (.jmp addr)) ∧ run'.idx = run.idx + 1) := by
  obtain ⟨-, rfl⟩ | ⟨record, d, u, hp, hd, hu, ht⟩ := step_inFlight_next hl h
  · exact nomatch hl'
  obtain ⟨-, rfl⟩ | ⟨-, -, -, -, rfl⟩ | ⟨hready, j, rfl, hj⟩ := applyLoopResult_afterStep_cases _ _ _ _ ht
  · exact nomatch hl'
  · exact nomatch hl'
  · cases hl'
    exact ⟨(ready_of_execDecoded_ready hu hready).1, rfl, record, d, u, hp, hd, hu, hready, rfl, hj⟩

/-! ### The single-step contract (R101 to R105) -/

/-- Settles O15: a halted engine reports `CPU is halted`, a ready one that the instruction was executed. -/
theorem everyInstructionCompletes : Obligations.EveryInstructionCompletes := by
  intro i s
  cases hh : s.cpu.halted with
  | true => exact ⟨_, exec_halted i hh, rfl⟩
  | false => exact ⟨_, exec_ready i hh, rfl⟩

/-- A record that does not decode is refused before anything else is looked at (D31). -/
theorem refusedEverywhere_of_undecoded {record : Record} {e : RecordRefusal} (h : decodeRecord record = .error e) :
    RefusedEverywhere record (refusalOf e) :=
  ⟨executeInstruction_undecoded h, fun _ _ hl hp => step_undecoded hl hp h, fun s rest hl hc => by
    simp [step_call hl hc, performCall, callExecute, executeInstruction_undecoded h]⟩

/-- Settles O16: a halted engine only reports; the refusals are the record decoder's. -/
theorem haltedStepChangesNothing : Obligations.HaltedStepChangesNothing := by
  refine ⟨fun record d s hd hh => ?_, fun record h => refusedEverywhere_of_undecoded (decodeRecord_error h),
    fun record m h hm hfit => ?_⟩
  · have hexec : executeInstruction record s = .next (s.notExecuted haltedMessage) := by
      simpa [executeInstruction, hd] using execDecoded_halted_eq d hh
    exact ⟨_, hexec, rfl, ⟨rfl, rfl, rfl⟩, rfl⟩
  · obtain ⟨-, -, -, hmalformed⟩ := recordDecoding record
    exact refusedEverywhere_of_undecoded (hmalformed m h hm hfit)

/-- Settles O17: the record decodes to `Unknown`, and a ready engine reports its name. -/
theorem unknownMnemonicChangesNothing : Obligations.UnknownMnemonicChangesNothing := by
  intro record s herror hm hready
  have hexec : executeInstruction record s = .next (s.notExecuted (unknownMessage record.mnemonic)) := by
    simpa [executeInstruction, execDecoded, decodeRecord_unknown herror (ofText_none hm)] using
      executeUnknown_ready hready _
  exact ⟨_, hexec, rfl, ⟨rfl, rfl, rfl⟩, rfl⟩

/-! ### A step runs the decoded instruction -/

/-- Settles O37: the equations of the two ways a record is executed. -/
theorem stepRunsDecodedRecord : Obligations.StepRunsDecodedRecord :=
  ⟨fun _ _ _ _ hl hp hd => step_record hl hp hd, fun _ _ _ _ hl hc hd => step_executeCall hl hc hd⟩

theorem withFetchWord_of_decode {nbits w : Nat} {i : Instr} (h : decodeTableWord nbits w = some i) (s : State) :
    s.withFetchWord nbits w = s.enterRun [i.toRecord s.cpu.pc] 0 := by
  simp [State.withFetchWord, State.placeTableWord, h]

theorem setReg_setRunning (c : CpuState) (b : Bool) (r : Reg) (v : Byte) :
    (c.setRunning b).setReg r v = (c.setReg r v).setRunning b := by
  cases r <;> rfl

/-- No effect reads or writes `running`. -/
theorem effectOf_setRunning (i : Instr) (c : CpuState) (b : Bool) :
    effectOf i (c.setRunning b) = (effectOf i c).setRunning b := by
  cases i with
  | mvi | mov | lda | cma =>
    simp only [effectOf, setRunning_reg, setRunning_load, setReg_setRunning]
    rfl
  | sta | add | adi | sub | sui =>
    simp only [effectOf, setRunning_reg]
    rfl
  | jmp | hlt => rfl

/-- Two states whose CPUs differ in `running` at most execute an instruction alike, but for the message's text. -/
theorem exec_setRunning (i : Instr) {s s' : State} {b : Bool} (h : s'.cpu = s.cpu.setRunning b) :
    ∃ u u', exec i s = .next u ∧ exec i s' = .next u' ∧ u'.cpu = u.cpu.setRunning b ∧
      u'.outcome.map (·.executed) = u.outcome.map (·.executed) := by
  have hhalted : s'.cpu.halted = s.cpu.halted := by rw [h, setRunning_halted]
  cases hh : s.cpu.halted with
  | true => exact ⟨_, _, exec_halted i hh, exec_halted i (hhalted.trans hh), h, rfl⟩
  | false =>
    refine ⟨_, _, exec_ready i hh, exec_ready i (hhalted.trans hh), ?_, rfl⟩
    rw [executed_cpu, executed_cpu, h, effectOf_setRunning]

/-- `running` is 1 after an iteration exactly if the run goes on (D4). -/
theorem applyLoopResult_cpu_of_running (prog : List Record) {x : State × LoopResult} (h : x.1.cpu.running = true) :
    (applyLoopResult prog x).cpu = x.1.cpu.setRunning (applyLoopResult prog x).loop.isSome := by
  obtain ⟨u, r⟩ := x
  cases r with
  | stop kind ret => rfl
  | continueAt j => exact (setRunning_self u.cpu).symm.trans (congrArg u.cpu.setRunning h)

@[simp] theorem applyLoopResult_outcome (prog : List Record) (x : State × LoopResult) :
    (applyLoopResult prog x).outcome = x.1.outcome := by
  obtain ⟨u, r⟩ := x
  cases r <;> rfl

/-- Settles O38: the placed record decodes to its instruction, whose step reads nothing of the CPU that the placing
changed. -/
theorem fetchWordRuns : Obligations.FetchWordRuns := by
  intro s nbits w i hw
  rw [withFetchWord_of_decode hw]
  have hstep := step_record (s := s.enterRun [i.toRecord s.cpu.pc] 0) rfl rfl (recordRoundTrip i s.cpu.pc)
  obtain ⟨u, u', hu, hu', hcpu, hout⟩ := exec_setRunning i (enterRun_cpu s [i.toRecord s.cpu.pc] 0)
  have hnext := hstep.trans (congrArg (onNext · _) hu')
  refine ⟨rfl, hstep, _, u, hnext, hu, ?_, ?_⟩
  · rw [applyLoopResult_cpu_of_running _ (by simp [afterStep, hcpu])]
    simp only [afterStep, hcpu]
    rfl
  · rw [applyLoopResult_outcome]
    exact hout

end Sys2Proof.Machine
end

section
/-! PROOFS of the statements on the run loop (40_executor.md section 2): how the index moves, how a run stops, its
entry, and the loop with fuel. -/

namespace Sys2Proof.Machine

/-! ### The index, and the stops (R112 to R115) -/

/-- Settles O40: the record's effect on a ready engine leaves PC at the operand of `JMP`. -/
theorem onlyJmpMovesIndex : Obligations.OnlyJmpMovesIndex := by
  intro s t run run' hl h hl'
  obtain ⟨hs, hprog, record, d, u, hp, hd, hu, hready, rfl, hidx⟩ := step_goes_on hl h hl'
  refine ⟨hs, hready, hprog, record, d, hp, hd, ?_⟩
  obtain ⟨addr, rfl, hj⟩ | hmove := hidx
  · exact .inl ⟨addr, rfl, hj, congrArg CpuState.pc (execDecoded_known_cpu hs hu)⟩
  · exact .inr hmove

/-- Settles O41: the end of the program, the halt and the missing target are the three stops of an iteration. -/
theorem runStops : Obligations.RunStops := by
  intro s t run hl h hl'
  obtain ⟨hp, rfl⟩ | ⟨record, d, u, hp, hd, hu, ht⟩ := step_inFlight_next hl h
  · exact .inr (.inl ⟨List.getElem?_eq_none_iff.1 hp, rfl, rfl⟩)
  have hlt : run.idx < run.prog.length := (List.getElem?_eq_some_iff.1 hp).1
  obtain ⟨hh, rfl⟩ | ⟨hready, addr, rfl, hj, rfl⟩ | ⟨-, j, rfl, -⟩ := applyLoopResult_afterStep_cases _ _ _ _ ht
  · have hcause : s.cpu.halted = true ∨ d = .known .hlt := by simpa using (execDecoded_halted hu).symm.trans hh
    refine .inl ⟨hlt, hh, rfl, ?_⟩
    obtain hs | rfl := hcause
    · exact .inr hs
    · exact .inl (stepInstr_inFlight hl hp hd)
  · have hs := (ready_of_execDecoded_ready hu hready).1
    exact .inr (.inr ⟨hlt, hs, hready, rfl, addr, stepInstr_inFlight hl hp hd, hj,
      congrArg CpuState.pc (execDecoded_known_cpu hs hu)⟩)
  · exact nomatch hl'

/-- Settles O42: each condition picks the case of the step and of the iteration's end. -/
theorem runStopConditions : Obligations.RunStopConditions := by
  intro s run hl
  refine ⟨fun hlen => step_pastEnd hl (List.getElem?_eq_none_iff.2 hlen), fun record d hp hd hh => ?_,
    fun record hp hd hready => ?_, fun record addr hp hd hready hj => ?_⟩
  · rw [step_record hl hp hd, execDecoded_halted_eq d hh, onNext_next,
      applyLoopResult_of_halted (u := s.notExecuted _) hh]
    exact ⟨_, rfl, rfl, rfl, rfl⟩
  · rw [step_record hl hp hd, execDecoded, exec_ready .hlt hready, onNext_next, applyLoopResult_of_halted rfl]
    exact ⟨_, rfl, rfl, rfl, rfl⟩
  · rw [step_record hl hp hd, execDecoded, exec_ready (.jmp addr) hready, onNext_next,
      applyLoopResult_jmp_notFound (u := s.executed _ (effectOf (.jmp addr))) hready hj]
    exact ⟨_, rfl, rfl, rfl, rfl⟩

/-- Settles O43: an unknown record has no effect and is no `JMP`. -/
theorem unknownRecordMovesOn : Obligations.UnknownRecordMovesOn := by
  intro s run record hl hp herror hm hready
  rw [step_record hl hp (decodeRecord_unknown herror (ofText_none hm)), execDecoded, executeUnknown_ready hready,
    onNext_next, applyLoopResult_moves_on (u := s.notExecuted _) hready _ _ (by simp)]
  exact ⟨_, rfl, rfl, rfl, rfl⟩

/-! ### The entry of a run (R110) -/

theorem callRun_natural {prog : List Record} (h : noErrorRecord prog = true) (k : Nat) (s : State) :
    callRun prog (.int k) s = .next (s.enterRun prog k) := by
  simp [callRun, h]

theorem callRun_errorRecord {prog : List Record} (h : noErrorRecord prog = false) (n : HostNumber) (s : State) :
    callRun prog n s = .refused .errorRecord := by
  simp [callRun, h]

theorem callRun_badIndex {prog : List Record} (h : noErrorRecord prog = true) {n : HostNumber}
    (hn : n = .nonInteger ∨ ∃ k : Int, n = .int k ∧ k < 0) (s : State) : callRun prog n s = .refused .badIndex := by
  obtain rfl | ⟨k, rfl, hk⟩ := hn
  · simp [callRun, h]
  · simp [callRun, h, hk]

/-- All a `run` call can answer: the entry of the run. -/
theorem callRun_next {prog : List Record} {n : HostNumber} {s t : State} (h : callRun prog n s = .next t) :
    noErrorRecord prog = true ∧ ∃ k : Nat, n = .int k ∧ t = s.enterRun prog k := by
  cases hprog : noErrorRecord prog with
  | false => exact nomatch (callRun_errorRecord hprog n s).symm.trans h
  | true =>
    cases n with
    | nonInteger => exact nomatch (callRun_badIndex hprog (.inl rfl) s).symm.trans h
    | int k =>
      by_cases hk : k < 0
      · exact nomatch (callRun_badIndex hprog (.inr ⟨k, rfl, hk⟩) s).symm.trans h
      · lift k to Nat using not_lt.1 hk
        cases (callRun_natural hprog k s).symm.trans h
        exact ⟨rfl, k, rfl, rfl⟩

/-- Settles O44: the `run` call looks at the program's records, then at the start index. -/
theorem runEntry : Obligations.RunEntry := fun _ _ _ hl =>
  ⟨fun k hc hprog => ⟨_, (step_call hl hc).trans (callRun_natural hprog k _), rfl, rfl, rfl⟩,
    fun n hc hprog => (step_call hl hc).trans (callRun_errorRecord hprog n _),
    fun _ hc hprog hn => (step_call hl hc).trans (callRun_badIndex hprog hn _)⟩

/-! ### Well-formed records (R82) -/

theorem decodeRecord_of_wellFormed {r : Record} (h : r.wellFormed = true) : ∃ d, decodeRecord r = .ok d := by
  obtain ⟨herror, hfit⟩ : r.error = false ∧ _ := by simpa [Record.wellFormed] using h
  cases hm : Mnemonic.ofText r.mnemonic with
  | none => exact ⟨_, decodeRecord_unknown herror hm⟩
  | some m =>
    obtain ⟨i, hi, -⟩ := decodeRecord_of_fit herror (text_of_ofText hm) (by simpa [hm] using hfit)
    exact ⟨_, hi⟩

/-- Settles O45: past the end the engine halts, and a well-formed record decodes. -/
theorem wellFormedRunNeverStuck : Obligations.WellFormedRunNeverStuck := by
  intro s run hl hwf
  cases hp : run.prog[run.idx]? with
  | none => exact ⟨_, step_pastEnd hl hp⟩
  | some record =>
    obtain ⟨d, hd⟩ := decodeRecord_of_wellFormed (hwf record (List.mem_of_getElem? hp))
    obtain ⟨u, hu⟩ := execDecoded_completes d s
    exact ⟨_, (step_record hl hp hd).trans (congrArg (onNext · _) hu)⟩

/-! ### The loop with fuel, which hands its index on and does not write it into the state (R116, R117) -/

/-- The state with another run in flight, or none. -/
def State.withLoop (s : State) (l : Option RunLoop) : State := { s with loop := l }

/-- Executing a record neither reads nor writes the run in flight. -/
theorem execDecoded_withLoop (d : Decoded) (s : State) (l : Option RunLoop) :
    execDecoded d (s.withLoop l) = onNext (execDecoded d s) (·.withLoop l) := by
  cases hh : s.cpu.halted with
  | true => rw [execDecoded_halted_eq d hh, execDecoded_halted_eq d (s := s.withLoop l) hh]; rfl
  | false =>
    cases d with
    | known i => rw [execDecoded, execDecoded, exec_ready i hh, exec_ready i (s := s.withLoop l) hh]; rfl
    | unknown name =>
      rw [execDecoded, execDecoded, executeUnknown_ready hh, executeUnknown_ready (s := s.withLoop l) hh]; rfl

theorem runStep_withLoop (prog : List Record) (idx : Nat) (s : State) (l : Option RunLoop) :
    runStep prog idx (s.withLoop l) = onNext (runStep prog idx s) fun x => (x.1.withLoop l, x.2) := by
  cases hp : prog[idx]? with
  | none => simp [runStep, hp, State.withLoop]
  | some record =>
    cases hd : decodeRecord record with
    | error e => simp [runStep_undecoded hp hd]
    | ok d =>
      obtain ⟨u, hu⟩ := execDecoded_completes d s
      simp only [runStep, hp, hd, execDecoded_withLoop, hu, onNext_next]
      rfl

section Iteration

variable {prog : List Record} {idx : Nat} {s u : State}

theorem iterateRun_zero (prog : List Record) (idx : Nat) (s : State) : iterateRun prog 0 idx s = .outOfFuel := rfl

theorem iterateRun_of_continueAt {j : Nat} (h : runStep prog idx s = .next (u, .continueAt j)) (n : Nat) :
    iterateRun prog (n + 1) idx s = iterateRun prog n j u := by
  simp [iterateRun, h]

theorem iterateRun_of_stop {kind : StopKind} {ret : Option Nat} (h : runStep prog idx s = .next (u, .stop kind ret))
    (n : Nat) : iterateRun prog (n + 1) idx s = .returned kind ret (u.leaveRun ret) := by
  simp [iterateRun, h]

theorem iterateRun_of_refused {r : Refusal} (h : runStep prog idx s = .refused r) (n : Nat) :
    iterateRun prog (n + 1) idx s = .refused r := by
  simp [iterateRun, h]

/-- The step of the machine that runs an iteration (log 29). -/
theorem step_of_runStep {x : State × LoopResult} (hl : s.loop = some ⟨prog, idx⟩) (h : runStep prog idx s = .next x) :
    step s = .next (applyLoopResult prog x) := by
  simp [step_inFlight hl, stepLoop, h]

theorem step_of_runStep_refused {r : Refusal} (hl : s.loop = some ⟨prog, idx⟩) (h : runStep prog idx s = .refused r) :
    step s = .refused r := by
  simp [step_inFlight hl, stepLoop, h]

end Iteration

/-- The loop with fuel reads the run in flight nowhere, and its return clears it. -/
theorem iterateRun_withLoop (prog : List Record) (l : Option RunLoop) (fuel : Nat) :
    ∀ (idx : Nat) (s : State), iterateRun prog fuel idx (s.withLoop l) = iterateRun prog fuel idx s := by
  induction fuel with
  | zero => exact fun _ _ => rfl
  | succ n ih =>
    intro idx s
    have hwith := runStep_withLoop prog idx s l
    rcases hx : runStep prog idx s with ⟨u, j | ⟨kind, ret⟩⟩ | f | r <;> rw [hx] at hwith
    · exact (iterateRun_of_continueAt hwith n).trans ((ih j u).trans (iterateRun_of_continueAt hx n).symm)
    · exact (iterateRun_of_stop hwith n).trans (iterateRun_of_stop hx n).symm
    · exact nomatch f
    · exact (iterateRun_of_refused hwith n).trans (iterateRun_of_refused hx n).symm

/-- Settles O46: an iteration of the loop with fuel is a step of the machine, up to the index the machine keeps in its
state. -/
theorem boundedRunAgreesWithSteps : Obligations.BoundedRunAgreesWithSteps := by
  intro fuel
  induction fuel with
  | zero =>
    intro s run hl
    rw [iterateRun_zero]
    exact ⟨by simp, by simp, fun _ => ⟨s, rfl, Option.isSome_of_eq_some hl⟩⟩
  | succ n ih =>
    intro s run hl
    rcases hx : runStep run.prog run.idx s with ⟨u, j | ⟨kind, ret⟩⟩ | f | r
    · have hnext : step s = .next (u.withLoop (some ⟨run.prog, j⟩)) := step_of_runStep hl hx
      have hn := ih (u.withLoop (some ⟨run.prog, j⟩)) ⟨run.prog, j⟩ rfl
      rw [iterateRun_withLoop] at hn
      obtain ⟨hret, href, hout⟩ := hn
      rw [iterateRun_of_continueAt hx n, coreRun_next hnext n]
      refine ⟨fun kind ret t h => ?_, fun r h => ?_, hout⟩
      · obtain ⟨hloop, hreply, k, hk, hrun⟩ := hret kind ret t h
        exact ⟨hloop, hreply, k + 1, Nat.succ_le_succ hk, (coreRun_next hnext k).trans hrun⟩
      · obtain ⟨k, hk, hrun⟩ := href r h
        exact ⟨k + 1, Nat.succ_le_succ hk, (coreRun_next hnext k).trans hrun⟩
    · rw [iterateRun_of_stop hx n]
      refine ⟨fun kind' ret' t h => ?_, by simp, by simp⟩
      cases h
      exact ⟨rfl, rfl, 1, Nat.succ_le_succ n.zero_le, coreRun_next (step_of_runStep hl hx) 0⟩
    · exact nomatch f
    · rw [iterateRun_of_refused hx n]
      refine ⟨by simp, fun r' h => ?_, by simp⟩
      cases h
      exact ⟨1, Nat.succ_le_succ n.zero_le, coreRun_refused (step_of_runStep_refused hl hx) 0⟩

end Sys2Proof.Machine
end

section
/-! PROOFS of the statements on PC in a laid-out program (40_executor.md R118): each record's successor stands its size
further on, and PC moves by the same size. -/

namespace Sys2Proof.Machine

/-! ### The layout (R66, R80) -/

theorem laidOutFrom_cons {cur : Nat} {r : Record} {rs : List Record} :
    laidOutFrom cur (r :: rs) = true ↔ ∃ i, decodeRecord r = .ok (.known i) ∧
      r.address = some (BitVec.ofNat 16 cur) ∧ cur + i.size ≤ 0x10000 ∧ laidOutFrom (cur + i.size) rs = true := by
  rw [laidOutFrom]
  rcases decodeRecord r with e | i | name <;> simp [and_assoc]

/-- The first record's address is where the layout begins. -/
theorem laidOutFrom_head {cur : Nat} {prog : List Record} {r : Record} (h : laidOutFrom cur prog = true)
    (hr : prog[0]? = some r) : r.address = some (BitVec.ofNat 16 cur) := by
  cases prog with
  | nil => exact nomatch hr
  | cons first rest =>
    cases hr
    obtain ⟨-, -, haddr, -⟩ := laidOutFrom_cons.1 h
    exact haddr

/-- Every record is an instruction with an address, and the next record stands its size further on. -/
theorem laidOutFrom_next {prog : List Record} : ∀ {cur idx : Nat} {r : Record}, laidOutFrom cur prog = true →
    prog[idx]? = some r → ∃ i a, decodeRecord r = .ok (.known i) ∧ r.address = some a ∧
      ∀ r', prog[idx + 1]? = some r' → r'.address = some (a + BitVec.ofNat 16 i.size) := by
  induction prog with
  | nil => exact fun _ hr => nomatch hr
  | cons first rest ih =>
    intro cur idx r h hr
    obtain ⟨i, hd, haddr, -, hrest⟩ := laidOutFrom_cons.1 h
    cases idx with
    | zero =>
      cases hr
      exact ⟨i, _, hd, haddr, fun r' hr' => by simpa [BitVec.ofNat_add] using laidOutFrom_head hrest hr'⟩
    | succ idx => exact ih hrest hr

/-! ### PC against the layout (R67) -/

/-- But for `JMP` and `HLT`, an instruction moves PC by its size. -/
theorem effectOf_pc_size {i : Instr} (hjmp : ∀ addr, i ≠ .jmp addr) (hhlt : i ≠ .hlt) (c : CpuState) :
    (effectOf i c).pc = c.pc + BitVec.ofNat 16 i.size := by
  cases i with
  | jmp addr => exact absurd rfl (hjmp addr)
  | hlt => exact absurd rfl hhlt
  | mvi | mov | lda | sta | add | adi | sub | sui | cma => simp [effectOf, Instr.size, Instr.mnemonic, Mnemonic.size]

/-- The lookup answers the index of a record that has the address (R181). -/
theorem address_of_lookupAddress {addr : Addr} {prog : List Record} : ∀ {j : Nat}, lookupAddress addr prog = some j →
    ∃ r, prog[j]? = some r ∧ r.address = some addr := by
  induction prog with
  | nil => exact fun h => nomatch h
  | cons first rest ih =>
    intro j h
    rw [lookupAddress] at h
    split at h
    next haddr =>
      cases h
      exact ⟨first, rfl, haddr⟩
    next =>
      obtain ⟨k, hk, rfl⟩ := Option.map_eq_some_iff.1 h
      exact ih hk

/-- Settles O47: after `JMP` both are the target; after anything else both have moved by the instruction's size. -/
theorem pcOffsetKept : Obligations.PcOffsetKept := by
  intro s t run run' r r' a a' hl hlaid h hl' hr ha hr' ha'
  obtain ⟨hs, hprog, record, d, u, hp, hd, hu, hready, rfl, hidx⟩ := step_goes_on hl h hl'
  cases hr.symm.trans hp
  obtain ⟨i, a₀, hi, ha₀, hnext⟩ := laidOutFrom_next hlaid hr
  cases ha.symm.trans ha₀
  cases hd.symm.trans hi
  have hcpu := execDecoded_known_cpu hs hu
  rw [hprog] at hr'
  obtain ⟨addr, hjmp, hj⟩ | ⟨hjmp, hmove⟩ := hidx
  · cases hjmp
    obtain ⟨target, htarget, haddr⟩ := address_of_lookupAddress hj
    cases hr'.symm.trans htarget
    cases ha'.symm.trans haddr
    exact ⟨fun _ => congrArg CpuState.pc hcpu, fun hno => absurd hi (hno _)⟩
  · rw [hmove] at hr'
    cases ha'.symm.trans (hnext r' hr')
    have hhlt : i ≠ .hlt := by simpa using (ready_of_execDecoded_ready hu hready).2
    have hpc : u.cpu.pc = s.cpu.pc + BitVec.ofNat 16 i.size := by
      rw [hcpu, effectOf_pc_size (by simpa using hjmp) hhlt]
    refine ⟨fun ⟨target, htarget⟩ => ?_, fun _ => ?_⟩
    · cases hi.symm.trans htarget
      exact absurd rfl (hjmp target)
    · show u.cpu.pc - _ = _
      rw [hpc, add_sub_add_right_eq_sub]

/-- Settles O48: an offset of 0 is kept (O47), and `run(prog, 0)` at PC 0 begins at the first record's address. -/
theorem pcIsRecordAddress : Obligations.PcIsRecordAddress := by
  refine ⟨fun s t hrun hlaid hagrees h => ?_, fun s t prog rest hl hc hlaid hpc h => ?_⟩
  · obtain ⟨run, hl⟩ := Option.isSome_iff_exists.1 hrun
    refine ⟨fun run' hl' => ?_, fun run' hl' r' hr' => ?_⟩ <;>
      obtain ⟨-, hprog, r, -, -, hr, -⟩ := step_goes_on hl h hl'
    · rw [hprog]
      exact hlaid run hl
    · have ha : r.address = some s.cpu.pc := hagrees run hl r hr
      obtain ⟨-, a', -, ha', -⟩ := laidOutFrom_next (hlaid run hl) (hprog ▸ hr')
      obtain ⟨hjmp, hmove⟩ := pcOffsetKept s t run run' r r' _ a' hl (hlaid run hl) h hl' hr ha hr' ha'
      rw [ha']
      by_cases hd : ∃ target, decodeRecord r = .ok (.known (.jmp target))
      · rw [hjmp hd]
      · have hoffset := hmove (not_exists.1 hd)
        rw [sub_self, sub_eq_zero] at hoffset
        rw [hoffset]
  · rw [step_call hl hc, performCall] at h
    obtain ⟨-, k, hk, rfl⟩ := callRun_next h
    cases hk
    refine ⟨fun run' hl' => ?_, fun run' hl' r' hr' => ?_⟩ <;> cases hl'
    · exact hlaid
    · simpa [hpc] using laidOutFrom_head hlaid hr'

end Sys2Proof.Machine
end

section
/-! PROOFS of the statements on the host's calls (40_executor.md sections 3 and 4) and on the machine's invariant: what a
call can answer, and that each operation on the state keeps the invariant. -/

namespace Sys2Proof.Machine

/-! ### The host's calls (R122) -/

/-- All a call of the host can answer: a reply with nothing else changed, the reset, one executed record, or the entry
of a run. -/
theorem performCall_next {call : HostCall} {s t : State} (h : performCall call s = .next t) :
    (∃ r, t = s.answer r) ∨ t = callReset s ∨ (∃ d u, execDecoded d s = .next u ∧ t = u.answerOutcome) ∨
      ∃ prog k, noErrorRecord prog = true ∧ t = s.enterRun prog k := by
  cases call with
  | assemble source =>
    simp only [performCall, callAssemble] at h
    split at h
    · exact nomatch h
    · cases h
      exact .inl ⟨_, rfl⟩
  | reset =>
    cases h
    exact .inr (.inl rfl)
  | executeInstruction record =>
    obtain ⟨u, hu, rfl⟩ := onNext_eq_next h
    cases hd : decodeRecord record with
    | error e => exact nomatch (executeInstruction_undecoded hd s).symm.trans hu
    | ok d => exact .inr (.inr (.inl ⟨d, u, by simpa [executeInstruction, hd] using hu, rfl⟩))
  | run prog n =>
    obtain ⟨hprog, k, -, rfl⟩ := callRun_next h
    exact .inr (.inr (.inr ⟨prog, k, hprog, rfl⟩))
  | getMemory start length =>
    simp only [performCall, callGetMemory] at h
    split at h
    · cases h
      exact .inl ⟨_, rfl⟩
    · exact nomatch h
  | snapshot =>
    cases h
    exact .inl ⟨_, rfl⟩

theorem callGetMemory_nonInteger {start length : HostNumber} (h : start = .nonInteger ∨ length = .nonInteger)
    (s : State) : callGetMemory start length s = .refused .badMemoryArgs := by
  obtain rfl | rfl := h
  · rfl
  · cases start <;> rfl

/-- Settles O52: both calls answer the state with a reply. -/
theorem readingCallsChangeNothing : Obligations.ReadingCallsChangeNothing := fun s _ hl =>
  ⟨fun hc => ⟨_, s.cpu.snapshot, step_call hl hc, rfl, hl, rfl, rfl, rfl, rfl, rfl, rfl, rfl, rfl, rfl, rfl, rfl, rfl,
      rfl, rfl⟩,
    fun _ _ hc => ⟨_, step_call hl hc, rfl, hl, rfl, rfl⟩,
    fun _ _ hc hn => (step_call hl hc).trans (callGetMemory_nonInteger hn _)⟩

theorem applyLoopResult_calls (prog : List Record) (x : State × LoopResult) :
    (applyLoopResult prog x).calls = x.1.calls := by
  obtain ⟨u, r⟩ := x
  cases r <;> rfl

/-- Settles O53: neither executing a record nor going on touches the calls. -/
theorem callsWaitForTheRun : Obligations.CallsWaitForTheRun := by
  intro s t h
  refine ⟨fun hrun => ?_, fun hl hc => ?_⟩
  · obtain ⟨run, hl⟩ := Option.isSome_iff_exists.1 hrun
    obtain ⟨-, rfl⟩ | ⟨-, d, u, -, -, hu, rfl⟩ := step_inFlight_next hl h
    · rfl
    · obtain ⟨-, -, hcalls⟩ := execDecoded_keeps hu
      exact (applyLoopResult_calls _ _).trans hcalls
  · cases (step_idle hl hc).symm.trans h
    rfl

/-! ### The invariant, operation by operation -/

theorem inv_callReset {s : State} (hl : s.loop = none) : (callReset s).Inv :=
  ⟨wf_reset, by simp [hl, CpuState.reset], by simp [hl]⟩

section Invariant

variable {s : State} (hinv : s.Inv)
include hinv

theorem inv_dropCall (rest : List HostCall) : State.Inv { s with calls := rest } := hinv

theorem inv_answer (r : Reply) : (s.answer r).Inv := hinv

theorem inv_answerOutcome : s.answerOutcome.Inv := by
  obtain ⟨hcpu, hloop, -, -⟩ := answerOutcome_keeps s
  simpa only [State.Inv, hcpu, hloop] using hinv

theorem inv_enterRun {prog : List Record} (hprog : noErrorRecord prog = true) (k : Nat) : (s.enterRun prog k).Inv := by
  obtain ⟨hmem, -, -⟩ := hinv
  refine ⟨hmem, rfl, fun run hl => ?_⟩
  cases hl
  exact hprog

theorem inv_leaveRun (ret : Option Nat) : (s.leaveRun ret).Inv := by
  obtain ⟨hmem, -, -⟩ := hinv
  exact ⟨hmem, rfl, fun _ hl => nomatch hl⟩

theorem inv_halt : State.Inv { s with cpu := s.cpu.halt } := hinv

theorem inv_moveTo {run : RunLoop} (hl : s.loop = some run) (j : Nat) :
    State.Inv { s with loop := some ⟨run.prog, j⟩ } := by
  obtain ⟨hmem, hrunning, hprog⟩ := hinv
  refine ⟨hmem, hrunning.trans (by rw [hl]; rfl), fun run' hl' => ?_⟩
  cases hl'
  exact hprog run hl

theorem inv_execDecoded {d : Decoded} {u : State} (hu : execDecoded d s = .next u) : u.Inv := by
  obtain ⟨hmem, hrunning, hprog⟩ := hinv
  obtain ⟨hloop, -, -⟩ := execDecoded_keeps hu
  refine ⟨?_, (execDecoded_running hu).trans (hloop ▸ hrunning), hloop ▸ hprog⟩
  obtain h | ⟨-, i, -, h⟩ := execDecoded_cpu hu <;> rw [h]
  · exact hmem
  · exact effectOf_wf i hmem

end Invariant

/-- Settles O49: a step is one of the operations above, or two in a row. -/
theorem stepKeepsInvariant : Obligations.StepKeepsInvariant := by
  intro s t hinv h
  cases hl : s.loop with
  | some run =>
    obtain ⟨-, rfl⟩ | ⟨-, d, u, -, -, hu, ht⟩ := step_inFlight_next hl h
    · exact inv_leaveRun (inv_halt hinv) _
    have huinv := inv_execDecoded hinv hu
    obtain ⟨hloop, -, -⟩ := execDecoded_keeps hu
    obtain ⟨-, rfl⟩ | ⟨-, -, -, -, rfl⟩ | ⟨-, j, rfl, -⟩ := applyLoopResult_afterStep_cases _ _ _ _ ht
    · exact inv_leaveRun huinv _
    · exact inv_leaveRun huinv _
    · exact inv_moveTo huinv (hloop.trans hl) j
  | none =>
    cases hc : s.calls with
    | nil =>
      cases (step_idle hl hc).symm.trans h
      exact hinv
    | cons call rest =>
      have hdrop := inv_dropCall hinv rest
      rw [step_call hl hc] at h
      obtain ⟨r, rfl⟩ | rfl | ⟨d, u, hu, rfl⟩ | ⟨prog, k, hprog, rfl⟩ := performCall_next h
      · exact inv_answer hdrop r
      · exact inv_callReset hl
      · exact inv_answerOutcome (inv_execDecoded hdrop hu)
      · exact inv_enterRun hdrop hprog k

end Sys2Proof.Machine
end

section
/-! PROOFS of the statements on the data-transfer instructions (41_data_transfer.md). First the frame of an
instruction's effect, in the terms of the statements; then each instruction on a ready engine: its result is read off
its effect, and the rest is the frame. -/

namespace Sys2Proof.Machine

/-! ### The frame of an instruction's effect -/

/-- R25's table in the statements' form: the list need only hold the registers the instruction writes. -/
theorem effectOf_keepsRegs {i : Instr} {written : List Reg} (h : ∀ r, WritesReg r i → r ∈ written) (c : CpuState) :
    c.KeepsRegs (effectOf i c) written := fun r hr =>
  effectOf_reg_of_not_writesReg (fun hw => hr (h r hw)) c

theorem effectOf_keepsMemory {i : Instr} (h : ∀ addr, i ≠ .sta addr) (c : CpuState) :
    c.KeepsMemory (effectOf i c) := fun addr => by rw [effectOf_load, if_neg (h addr)]

theorem effectOf_keepsUnwritten (i : Instr) (c : CpuState) : c.KeepsUnwritten (effectOf i c) :=
  ⟨effectOf_sp i c, effectOf_ac i c, effectOf_running i c⟩

/-- R222: only `HLT` halts. -/
theorem effectOf_halted {i : Instr} (h : i ≠ .hlt) (c : CpuState) : (effectOf i c).halted = c.halted := by
  cases i with
  | hlt => exact absurd rfl h
  | mvi | mov | lda | sta | add | adi | sub | sui | jmp | cma => simp [effectOf]

/-- An execution touches nothing outside the CPU but the outcome. -/
theorem executed_keepsLoop (s : State) (m : Text) (f : CpuState → CpuState) : s.KeepsLoop (s.executed m f) :=
  ⟨rfl, rfl, rfl⟩

/-- R106. -/
theorem executed_reportsExecuted (s : State) (m : Text) (f : CpuState → CpuState) :
    (s.executed m f).ReportsExecuted := ⟨m, rfl⟩

/-- A ready engine stays ready after every instruction but `HLT`. -/
theorem executed_ready {s : State} (h : s.Ready) {i : Instr} (hi : i ≠ .hlt) (m : Text) :
    (s.executed m (effectOf i)).Ready := (effectOf_halted hi s.cpu).trans h

/-- A ready engine executes an instruction that writes one register and no flag, memory or halt: the register holds the
effect's value, PC follows R26's table, and everything else is kept. -/
theorem exec_writesOneRegister (i : Instr) {r : Reg} {v : Byte} {s : State} (hready : s.Ready)
    (hresult : (effectOf i s.cpu).reg r = v) (hreg : ∀ q, WritesReg q i → q = r) (hflags : ¬ AffectsFlags i)
    (hsta : ∀ addr, i ≠ .sta addr) (hhlt : i ≠ .hlt) :
    ∃ t, exec i s = .next t ∧ t.cpu.reg r = v ∧ PcFollows i s.cpu.pc t.cpu.pc ∧ t.ReportsExecuted ∧
      s.cpu.KeepsRegs t.cpu [r] ∧ t.cpu.flags = s.cpu.flags ∧ s.cpu.KeepsMemory t.cpu ∧
      s.cpu.KeepsUnwritten t.cpu ∧ t.Ready ∧ s.KeepsLoop t :=
  ⟨_, exec_ready i hready, hresult, effectOf_pcFollows i _, executed_reportsExecuted _ _ _,
    effectOf_keepsRegs (fun q hw => List.mem_singleton.2 (hreg q hw)) _, effectOf_flags_of_not_affectsFlags hflags _,
    effectOf_keepsMemory hsta _, effectOf_keepsUnwritten i _, executed_ready hready hhlt _, executed_keepsLoop _ _ _⟩

/-! ### The statements -/

/-- Settles O4: `MVI` writes its operand to its one register. -/
theorem mviResult : Obligations.MviResult := fun r v s hready =>
  have hresult : (effectOf (.mvi r v) s.cpu).reg r = v := by simp [effectOf]
  exec_writesOneRegister (.mvi r v) hready hresult (fun _ hw => Eq.symm hw) id nofun nofun

/-- Settles O5: the value `MOV` writes is the source's before the write, so the two registers may be the same. -/
theorem movResult : Obligations.MovResult := fun rd rs s hready =>
  have hresult : (effectOf (.mov rd rs) s.cpu).reg rd = s.cpu.reg rs := by simp [effectOf]
  exec_writesOneRegister (.mov rd rs) hready hresult (fun _ hw => Eq.symm hw) id nofun nofun

/-- Settles O6: `LDA` writes the byte at its operand to A. -/
theorem ldaResult : Obligations.LdaResult := fun addr s hready =>
  have hresult : (effectOf (.lda addr) s.cpu).reg .a = s.cpu.load addr := by simp [effectOf]
  exec_writesOneRegister (.lda addr) hready hresult (fun _ hw => hw) id nofun nofun

/-- Settles O7: `STA` writes no register, and of memory only the cell at its operand. -/
theorem staResult : Obligations.StaResult := by
  intro addr s hready
  have hload := effectOf_load (.sta addr) s.cpu
  have hregs := effectOf_keepsRegs (i := .sta addr) (written := []) (fun _ hw => False.elim hw) s.cpu
  have hflags := effectOf_flags_of_not_affectsFlags (i := .sta addr) id s.cpu
  refine ⟨_, exec_ready (.sta addr) hready, ?stored, ?otherCells, effectOf_pcFollows (.sta addr) _,
    executed_reportsExecuted _ _ _, hregs, hflags, effectOf_keepsUnwritten _ _,
    executed_ready (i := .sta addr) hready nofun _, executed_keepsLoop _ _ _⟩
  case stored => exact (hload addr).trans (if_pos rfl)
  case otherCells =>
    intro other hne
    have hsta : Instr.sta addr ≠ .sta other := fun h => hne (Instr.sta.inj h).symm
    exact (hload other).trans (if_neg hsta)

end Sys2Proof.Machine
end

section
/-! PROOFS of the statements on arithmetic (42_arithmetic.md). First the stored byte and the four flags on the
untruncated integer; then one result and frame for all four instructions, whose effects are all `CpuState.arith` of
their sum or difference, then an advance of PC. -/

namespace Sys2Proof.Machine

/-! ### The stored byte and the flags, on the integer (R150 to R154) -/

theorem toNat_lowByte (x : Int) : (lowByte x).toNat = (x % 256).toNat := BitVec.toNat_ofInt x

/-- R164: the byte stored is the mathematical result modulo 256, for a negative one too. -/
theorem lowByte_eq_emod (x : Int) : ((lowByte x).toNat : Int) = x % 256 := by
  rw [toNat_lowByte]
  omega

theorem zeroFlag_iff (x : Int) : zeroFlag x = true ↔ x % 256 = 0 := by
  have hbyte := lowByte_eq_emod x
  rw [zeroFlag, beq_iff_eq, ← BitVec.toNat_inj]
  change (lowByte x).toNat = 0 ↔ x % 256 = 0
  omega

/-- Bit 7 of the stored byte is its most significant bit. -/
theorem signFlag_iff (x : Int) : signFlag x = true ↔ 128 ≤ x % 256 := by
  have hbyte := lowByte_eq_emod x
  have hmsb : signFlag x = (lowByte x).msb := (BitVec.msb_eq_getLsbD_last _).symm
  rw [hmsb, BitVec.msb_eq_true_iff_two_mul_ge]
  omega

theorem carryFlag_iff (x : Int) : carryFlag x = true ↔ 255 < x ∨ x < 0 := decide_eq_true_iff

theorem popcount_lowByte (x : Int) :
    popcount (lowByte x) = (List.range 8).countP fun k => (x % 256).toNat.testBit k := by
  rw [← toNat_lowByte]
  rfl

theorem parityFlag_iff (x : Int) :
    parityFlag x = true ↔ ((List.range 8).countP fun k => (x % 256).toNat.testBit k) % 2 = 0 := by
  rw [parityFlag, popcount_lowByte, beq_iff_eq]

/-- Settles O18, flag by flag. -/
theorem flagRule : Obligations.FlagRule := fun x _ =>
  ⟨zeroFlag_iff x, signFlag_iff x, carryFlag_iff x, parityFlag_iff x⟩

/-! ### The four instructions -/

/-- A ready engine executes an instruction whose effect is arithmetic with the untruncated result `x` and then an
advance of PC: A and the flags follow `x`, and everything else is kept. -/
theorem exec_arith {i : Instr} {s : State} {x : Int} {n : Nat} (hready : s.Ready)
    (heffect : effectOf i s.cpu = (s.cpu.arith x).advance n) :
    ∃ t, exec i s = .next t ∧ ((t.cpu.reg .a).toNat : Int) = x % 256 ∧ FlagsFollow x t.cpu.flags ∧
      PcAdvanced n s.cpu.pc t.cpu.pc ∧ t.ReportsExecuted ∧ s.cpu.KeepsRegs t.cpu [.a] ∧ s.cpu.KeepsMemory t.cpu ∧
      s.cpu.KeepsUnwritten t.cpu ∧ t.Ready ∧ s.KeepsLoop t := by
  refine ⟨_, exec_ready i hready, ?result, ?flags, ?pc, executed_reportsExecuted _ _ _, ?regs, ?memory,
    effectOf_keepsUnwritten i _, ?ready, executed_keepsLoop _ _ _⟩
  case ready => exact (congrArg CpuState.halted heffect).trans hready
  all_goals rw [executed_cpu, heffect]
  case result => rw [advance_reg, arith_reg_a, lowByte_eq_emod]
  case flags => exact flagRule x s.cpu.flags
  case pc => exact advance_pcAdvanced (s.cpu.arith x) n
  case regs =>
    intro q hq
    rw [advance_reg, arith_reg_ne _ (fun h => hq (List.mem_singleton.2 h))]
  case memory => exact fun _ => rfl

/-- Settles O8: the effect of `ADD` is that of its sum, with both operands read before A is written. -/
theorem addResult : Obligations.AddResult := fun _ _ hready => exec_arith hready rfl

/-- Settles O9: the effect of `ADI` is that of its sum. -/
theorem adiResult : Obligations.AdiResult := fun _ _ hready => exec_arith hready rfl

/-- Settles O10: the effect of `SUB` is that of its untruncated difference. -/
theorem subResult : Obligations.SubResult := fun _ _ hready => exec_arith hready rfl

/-- Settles O11: the effect of `SUI` is that of its untruncated difference. -/
theorem suiResult : Obligations.SuiResult := fun _ _ hready => exec_arith hready rfl

/-! ### Carry and borrow (R153, R164) -/

section CarryAndBorrow

variable {c : CpuState} {a b : Byte}

/-- A sum of two bytes is never below 0, so its CY is the carry out of bit 7. -/
theorem carry_of_sum (hresult : ((c.reg .a).toNat : Int) = ((a.toNat : Int) + (b.toNat : Int)) % 256)
    (hflags : FlagsFollow ((a.toNat : Int) + (b.toNat : Int)) c.flags) :
    (c.reg .a).toNat = (a.toNat + b.toNat) % 256 ∧ (c.flags.cy = true ↔ 256 ≤ a.toNat + b.toNat) := by
  obtain ⟨-, -, hcy, -⟩ := hflags
  exact ⟨by omega, hcy.trans (by omega)⟩

/-- A difference of two bytes is never above 255, so its CY is the borrow. -/
theorem borrow_of_difference (hresult : ((c.reg .a).toNat : Int) = ((a.toNat : Int) - (b.toNat : Int)) % 256)
    (hflags : FlagsFollow ((a.toNat : Int) - (b.toNat : Int)) c.flags) :
    (c.reg .a).toNat = (256 + a.toNat - b.toNat) % 256 ∧ (c.flags.cy = true ↔ a.toNat < b.toNat) := by
  obtain ⟨-, -, hcy, -⟩ := hflags
  have ha := a.isLt
  have hb := b.isLt
  exact ⟨by omega, hcy.trans (by omega)⟩

end CarryAndBorrow

/-- Settles O19: the results of the four instructions, read on naturals. -/
theorem arithmeticLaw : Obligations.ArithmeticLaw := by
  intro s r v hready
  obtain ⟨tAdd, hAdd, hAddA, hAddFlags, -⟩ := addResult r s hready
  obtain ⟨tAdi, hAdi, hAdiA, hAdiFlags, -⟩ := adiResult v s hready
  obtain ⟨tSub, hSub, hSubA, hSubFlags, -⟩ := subResult r s hready
  obtain ⟨tSui, hSui, hSuiA, hSuiFlags, -⟩ := suiResult v s hready
  exact ⟨⟨tAdd, hAdd, carry_of_sum hAddA hAddFlags⟩, ⟨tAdi, hAdi, carry_of_sum hAdiA hAdiFlags⟩,
    ⟨tSub, hSub, borrow_of_difference hSubA hSubFlags⟩, ⟨tSui, hSui, borrow_of_difference hSuiA hSuiFlags⟩⟩

/-! ### The difference 0 -/

theorem arith_zero (c : CpuState) :
    c.arith 0 = { c with a := 0x00, flags := { z := true, s := false, cy := false, p := true, ac := c.flags.ac } } :=
  rfl

/-- Settles O20: the untruncated difference is 0, whatever A was. -/
theorem subAClearsA : Obligations.SubAClearsA := by
  intro s hready
  have heffect : effectOf (.sub .a) s.cpu = (s.cpu.arith 0).advance 1 := by
    rw [effectOf, sub_self]
  refine ⟨_, exec_ready (.sub .a) hready, ?_⟩
  rw [executed_cpu, heffect, arith_zero]
  exact ⟨rfl, rfl⟩

end Sys2Proof.Machine
end

section
/-! PROOFS of the statements on control transfer (43_branch.md). The jump lookup is the library's search for the first
index that satisfies a test; `JMP` is the one effect that writes PC alone. -/

namespace Sys2Proof.Machine

/-! ### The lookup of a target (R181) -/

theorem lookupAddress_eq_findIdx? (addr : Addr) (prog : List Record) :
    lookupAddress addr prog = prog.findIdx? fun r => decide (r.address = some addr) := by
  induction prog with
  | nil => rfl
  | cons first rest ih => simp only [lookupAddress, ih, List.findIdx?_cons, decide_eq_true_eq]

theorem lookupAddress_eq_some_iff {addr : Addr} {prog : List Record} {i : Nat} :
    lookupAddress addr prog = some i ↔
      (∃ r, prog[i]? = some r ∧ r.address = some addr) ∧
        ∀ j r, j < i → prog[j]? = some r → r.address ≠ some addr := by
  rw [lookupAddress_eq_findIdx?, List.findIdx?_eq_some_iff_getElem]
  simp only [decide_eq_true_eq, List.getElem?_eq_some_iff]
  constructor
  · rintro ⟨hi, haddr, hfirst⟩
    refine ⟨⟨_, ⟨hi, rfl⟩, haddr⟩, ?_⟩
    rintro j _ hj ⟨-, rfl⟩
    exact hfirst j hj
  · rintro ⟨⟨_, ⟨hi, rfl⟩, haddr⟩, hfirst⟩
    exact ⟨hi, haddr, fun j hj => hfirst j _ hj ⟨hj.trans hi, rfl⟩⟩

theorem lookupAddress_eq_none_iff {addr : Addr} {prog : List Record} :
    lookupAddress addr prog = none ↔ ∀ r ∈ prog, r.address ≠ some addr := by
  simp only [lookupAddress_eq_findIdx?, List.findIdx?_eq_none_iff, decide_eq_false_iff_not, ne_eq]

/-- Settles O39: the lookup is the search for the first record with the address. -/
theorem lookupIsLeastIndex : Obligations.LookupIsLeastIndex := fun _ _ =>
  ⟨fun _ => lookupAddress_eq_some_iff, lookupAddress_eq_none_iff⟩

/-! ### The jump (R180) -/

/-- Settles O12: the effect of `JMP` puts its operand into PC, and the rest is the frame of an instruction that writes
no register, flag or memory cell. -/
theorem jmpResult : Obligations.JmpResult := fun addr s hready =>
  have hpc : (effectOf (.jmp addr) s.cpu).pc = addr := effectOf_pcFollows (.jmp addr) s.cpu
  have hregs := effectOf_keepsRegs (i := .jmp addr) (written := []) (fun _ hw => False.elim hw) s.cpu
  have hflags := effectOf_flags_of_not_affectsFlags (i := .jmp addr) id s.cpu
  ⟨_, exec_ready (.jmp addr) hready, hpc, executed_reportsExecuted _ _ _, hregs, hflags,
    effectOf_keepsMemory (i := .jmp addr) nofun _, effectOf_keepsUnwritten _ _,
    executed_ready (i := .jmp addr) hready nofun _, executed_keepsLoop _ _ _⟩

end Sys2Proof.Machine
end

section
/-! PROOFS of the statements on logic (44_logical.md). The effect of `CMA` on A is a difference from 0xFF, which is the
bitwise complement; the rest is the frame of an instruction that writes one register. -/

namespace Sys2Proof.Machine

/-- R190's difference never borrows: it is the 8-bit complement. -/
theorem toNat_complement (v : Byte) : (0xFF - v).toNat = 255 - v.toNat := by
  have hnot : 0xFF - v = ~~~v := BitVec.allOnes_sub_eq_not v
  rw [hnot, BitVec.toNat_not]

theorem effectOf_cma_reg_a (c : CpuState) : (effectOf .cma c).reg .a = 0xFF - c.reg .a := by
  rw [effectOf, advance_reg, setReg_reg_self]

/-- Settles O13: `CMA` writes the complement to A alone. -/
theorem cmaResult : Obligations.CmaResult := by
  intro s hready
  obtain ⟨t, hexec, hresult, hframe⟩ :=
    exec_writesOneRegister .cma hready (effectOf_cma_reg_a s.cpu) (fun _ hw => hw) id nofun nofun
  exact ⟨t, hexec, by rw [hresult, toNat_complement], hframe⟩

/-- A ready engine that executes `CMA` stays ready, with A complemented. -/
theorem exec_cma_complementsA {s t : State} (hready : s.Ready) (h : exec .cma s = .next t) :
    t.Ready ∧ t.cpu.reg .a = 0xFF - s.cpu.reg .a := by
  rw [exec_ready .cma hready] at h
  cases h
  exact ⟨executed_ready (i := .cma) hready nofun _, effectOf_cma_reg_a s.cpu⟩

/-- Settles O21: the first `CMA` leaves the engine ready, so both complement A, and the second undoes the first. -/
theorem cmaTwiceRestoresA : Obligations.CmaTwiceRestoresA := by
  intro s t u hready hfirst hsecond
  obtain ⟨htready, htA⟩ := exec_cma_complementsA hready hfirst
  obtain ⟨-, huA⟩ := exec_cma_complementsA htready hsecond
  rw [huA, htA, sub_sub_cancel]

end Sys2Proof.Machine
end

section
/-! PROOFS of the statement on machine control (45_control.md). `HLT` is the one instruction with a fixed message and
the one whose effect sets `halted`; the rest is the frame of an instruction that writes no register, flag or memory
cell. -/

namespace Sys2Proof.Machine

theorem messageOf_hlt (c : CpuState) : messageOf .hlt c = "CPU halted".toList := if_pos rfl

theorem effectOf_hlt_halted (c : CpuState) : (effectOf .hlt c).halted = true := halt_halted c

/-- A ready engine executes `HLT` with its fixed message. -/
theorem exec_hlt_ready {s : State} (hready : s.Ready) :
    exec .hlt s = .next (s.executed "CPU halted".toList (effectOf .hlt)) := by
  rw [exec_ready .hlt hready, messageOf_hlt]

/-- Settles O14: the effect of `HLT` sets `halted`, R26's table keeps PC, and `HLT` is no writer in the tables of the
registers and the flags. -/
theorem hltResult : Obligations.HltResult := fun s hready =>
  have hhalted := effectOf_hlt_halted s.cpu
  have hpc : (effectOf .hlt s.cpu).pc = s.cpu.pc := effectOf_pcFollows .hlt s.cpu
  have hregs := effectOf_keepsRegs (i := .hlt) (written := []) (fun _ hw => False.elim hw) s.cpu
  have hflags := effectOf_flags_of_not_affectsFlags (i := .hlt) id s.cpu
  ⟨_, exec_hlt_ready hready, hhalted, hpc, rfl, hregs, hflags, effectOf_keepsMemory (i := .hlt) nofun _,
    effectOf_keepsUnwritten _ _, executed_keepsLoop _ _ _⟩

end Sys2Proof.Machine
end

section
/-! PROOFS of the statement on exceptions (60_exceptions.md): the two states Ready and Halted, and the moves between
them, read off from `step_cpu`. -/

namespace Sys2Proof.Machine

/-- What halts the engine in one step: an executed `HLT`, or a run at or past the end of its program (R222). -/
def State.HaltCause (s : State) : Prop :=
  s.stepInstr? = some .hlt ∨ ∃ run, s.loop = some run ∧ run.prog.length ≤ run.idx

theorem step_reset_cpu {s t : State} (h : step s = .next t) (hr : s.resetsNext = true) : t.cpu = CpuState.reset := by
  obtain ⟨-, ht⟩ | ⟨hr', -⟩ := step_cpu h
  · exact ht
  · exact Bool.noConfusion (hr.symm.trans hr')

/-- A step other than `reset()` keeps `halted`, or sets it for one of the two causes. -/
theorem step_halted {s t : State} (h : step s = .next t) (hr : s.resetsNext = false) :
    t.cpu.halted = s.cpu.halted ∨ t.cpu.halted = true ∧ s.HaltCause := by
  obtain ⟨hr', -⟩ | ⟨-, c, b, ht, hc⟩ := step_cpu h
  · exact Bool.noConfusion (hr.symm.trans hr')
  · rw [ht, setRunning_halted]
    obtain rfl | ⟨-, i, hi, rfl⟩ | ⟨rfl, hend⟩ := hc
    · exact .inl rfl
    · by_cases hhlt : i = .hlt
      · subst hhlt
        exact .inr ⟨effectOf_hlt_halted _, .inl hi⟩
      · exact .inl (effectOf_halted hhlt _)
    · exact .inr ⟨halt_halted _, .inr hend⟩

/-- Settles O31: `reset()` leaves the reset CPU, and any other step keeps `halted` or sets it for one of the two
causes. -/
theorem readyAndHalted : Obligations.ReadyAndHalted := by
  intro s t h
  cases hr : s.resetsNext with
  | true =>
    have ht := step_reset_cpu h hr
    have hready : t.Ready := congrArg CpuState.halted ht
    exact ⟨fun _ => ⟨ht, hready⟩, fun _ => nofun, fun _ hhalted => Bool.noConfusion (hready.symm.trans hhalted)⟩
  | false =>
    refine ⟨nofun, fun hs _ => ?_, fun hs hhalted => ?_⟩ <;> obtain hkept | ⟨hset, hcause⟩ := step_halted h hr
    · exact hkept.trans hs
    · exact hset
    · exact Bool.noConfusion (hs.symm.trans (hkept.symm.trans hhalted))
    · exact hcause

end Sys2Proof.Machine
end

section
/-! PROOFS of the statements on reset (70_reset_and_hazards.md): the step of the `reset()` call, and the accessor's map
of one address. -/

namespace Sys2Proof.Machine

theorem step_resetCall {s : State} {rest : List HostCall} (hl : s.loop = none) (hc : s.calls = .reset :: rest) :
    step s = .next (callReset { s with calls := rest }) := step_call hl hc

/-- Settles O2: the step of the call leaves the reset CPU, whose fields are those of R36's table. -/
theorem resetCallResetsEveryField : Obligations.ResetCallResetsEveryField := by
  intro s rest hl hc
  obtain ⟨hreg, hpc, hsp, -, -, -, -, -, hload, hhalted, hrunning⟩ := resetValues
  exact ⟨_, step_resetCall hl hc, hreg, hpc, hsp, rfl, hload, hhalted, hrunning, rfl, hl, rfl⟩

theorem clippedIndices_one (addr : Addr) : clippedIndices addr.toNat 1 = [addr.toNat] := by
  have hhi : (min ((addr.toNat : Int) + 1) Config.addressSpaceSize).toNat = addr.toNat + 1 := by
    have := addr.isLt
    simp only [Config.addressSpaceSize]
    omega
  simp [clippedIndices, hhi]

/-- R55 for a range of one address. -/
theorem getMemory_one (c : CpuState) (addr : Addr) : getMemory c addr.toNat 1 = [(hex4 addr, c.load addr)] := by
  simp [getMemory_eq_map, clippedRange, clippedIndices_one]

/-- R34, R36: no cell is listed at reset, so each reads 0x00. -/
theorem reset_load (addr : Addr) : CpuState.reset.load addr = 0x00 := rfl

/-- Settles O3: `STA` (O7) keeps the host's calls, so the next step is `reset()`, after which every cell reads 0x00. -/
theorem resetZeroesStoredCell : Obligations.ResetZeroesStoredCell := by
  intro s t u addr rest hready hl hc hsta hreset
  obtain ⟨t', ht', hstored, -, -, -, -, -, -, -, hloop, -, hcalls⟩ := staResult addr s hready
  cases ht'.symm.trans hsta
  have hu := step_resetCall (hloop.trans hl) (hcalls.trans hc)
  cases hu.symm.trans hreset
  refine ⟨hstored, ?zeroed⟩
  rw [getMemory_one, callReset_cpu, reset_load]

end Sys2Proof.Machine
end
